-- ==== Sys2Proof/Word.lean ====
section
/-! DEFINITION. The register word (10_state.md R22) and the bit sequence (00_scope.md R7). -/

namespace Sys2Proof

/-- A host register word, 32 bits (00_scope.md R6, parameter `W`). -/
abbrev Word := BitVec 32

/-- A bit sequence, the first-emitted bit first (00_scope.md R7); `true` is the bit 1. -/
abbrev Bits := List Bool

end Sys2Proof
end

