-- ==== Sys2Proof/Syntax.lean ====
section
/-! DEFINITION. The commands, one constructor per row of the opcode table (30_encoding.md R63). -/

namespace Sys2Proof

/-- A command. `fixed` and `egesc` carry the immediate `N` of format CN (30_encoding.md R61); the other operands are
OPA, OPB and the record OPA names (R64). -/
inductive Instr where
  | fixed (nbits : Nat)
  | flag
  | uvlc
  | svlc
  | tu
  | eglvl
  | egesc (order : Nat)
  | rps
  | epo
  | wp
  | sl
  deriving DecidableEq, Repr

end Sys2Proof
end

