-- ==== Sys2Proof/WellFormed.lean ====
section
/-! DEFINITION. Which commands a command word can express (30_encoding.md R60, R61). -/

namespace Sys2Proof

/-- The immediate `N` is a 6-bit unsigned field, 0..63: wider than either command's legal range on purpose
(30_encoding.md R61). Nothing else of a command can be ill-formed. -/
def Instr.wellFormed : Instr → Bool
  | .fixed n => n < 64
  | .egesc n => n < 64
  | .flag => true
  | .uvlc => true
  | .svlc => true
  | .tu => true
  | .eglvl => true
  | .rps => true
  | .epo => true
  | .wp => true
  | .sl => true

end Sys2Proof
end

