-- ==== Sys2Proof/Decode.lean ====
section
/-! DEFINITION. From a command word to a command (30_encoding.md R60-R66), total, rejecting by name, and back. -/

namespace Sys2Proof

/-- Why a word is no command; both raise `ILLEGAL_COMMAND` (30_encoding.md R66 steps 1 and 2). -/
inductive DecodeError where
  /-- `w[7:0]` is in no row of the opcode map (R65). -/
  | unassignedOpcode
  /-- A reserved bit of the row's format is set (R62). -/
  | reservedBits
  deriving DecidableEq, Repr

/-- `OPC = CMD[7:0]` (30_encoding.md R60). -/
def opcField (w : Word) : BitVec 8 := w.extractLsb' 0 8

/-- `N = CMD[13:8]`, zero-extended (30_encoding.md R61). -/
def immField (w : Word) : Nat := (w.extractLsb' 8 6).toNat

/-- Format C0: `CMD[31:8]` must be 0 (30_encoding.md R62). -/
def decodeC0 (w : Word) (i : Instr) : Except DecodeError Instr :=
  if w.extractLsb' 8 24 = 0 then .ok i else .error .reservedBits

/-- Format CN: `CMD[31:14]` must be 0 (30_encoding.md R62). -/
def decodeCN (w : Word) (i : Instr) : Except DecodeError Instr :=
  if w.extractLsb' 14 18 = 0 then .ok i else .error .reservedBits

/-- The command a word selects (30_encoding.md R63, R66 steps 1 and 2). -/
def decode (w : Word) : Except DecodeError Instr :=
  match (opcField w).toNat with
  | 0x01 => decodeCN w (.fixed (immField w))
  | 0x02 => decodeC0 w .flag
  | 0x03 => decodeC0 w .uvlc
  | 0x04 => decodeC0 w .svlc
  | 0x05 => decodeC0 w .tu
  | 0x06 => decodeC0 w .eglvl
  | 0x07 => decodeCN w (.egesc (immField w))
  | 0x10 => decodeC0 w .rps
  | 0x11 => decodeC0 w .epo
  | 0x12 => decodeC0 w .wp
  | 0x13 => decodeC0 w .sl
  | _    => .error .unassignedOpcode

/-- The opcode of a command's row (30_encoding.md R63). -/
def Instr.opcode : Instr → BitVec 8
  | .fixed _ => 0x01
  | .flag    => 0x02
  | .uvlc    => 0x03
  | .svlc    => 0x04
  | .tu      => 0x05
  | .eglvl   => 0x06
  | .egesc _ => 0x07
  | .rps     => 0x10
  | .epo     => 0x11
  | .wp      => 0x12
  | .sl      => 0x13

/-- The immediate of a command, 0 in format C0 (30_encoding.md R60). -/
def Instr.imm : Instr → Nat
  | .fixed n => n
  | .egesc n => n
  | .flag    => 0
  | .uvlc    => 0
  | .svlc    => 0
  | .tu      => 0
  | .eglvl   => 0
  | .rps     => 0
  | .epo     => 0
  | .wp      => 0
  | .sl      => 0

/-- The command word: `match | (N << 8)` of the command's row (30_encoding.md R80), `match` being the opcode. -/
def encode (i : Instr) : Word :=
  i.opcode.zeroExtend 32 ||| (BitVec.ofNat 32 i.imm <<< 8)

/-- The command the decoder reads from a table word: commands are single 32-bit words (30_encoding.md R60, R67), so
the `nbits` low bits of `w` are the word and every bit above them is 0. -/
def decodeTableWord (nbits w : Nat) : Option Instr :=
  let v := w % 2 ^ nbits
  if v < 2 ^ 32 then
    match decode (BitVec.ofNat 32 v) with
    | .ok i => some i
    | .error _ => none
  else none

end Sys2Proof
end

