-- ==== Sys2Proof/Machine/Bits.lean ====
section
/-! DEFINITION. The bit and integer notation of 00_scope.md R7-R9, and the byte view of 20_memory.md R45. -/

namespace Sys2Proof.Machine

/-- `bits_n(v)`: the `n` low-order bits of `v`, most-significant first (00_scope.md R8). -/
def bitsMsb : Nat → Nat → Bits
  | 0, _ => []
  | n + 1, v => v.testBit n :: bitsMsb n v

/-- `rep(b, n)` (00_scope.md R7). -/
def rep (b : Bool) (n : Nat) : Bits := List.replicate n b

/-- `bitlen(v)`, the least `w` with `2^w > v` (00_scope.md R9). -/
def bitlen (v : Nat) : Nat := if v = 0 then 0 else v.log2 + 1

/-- `floor(log2(v))` for `v >= 1`, which is `bitlen(v) - 1` (00_scope.md R9). -/
def floorLog2 (v : Nat) : Nat := bitlen v - 1

/-- `a >> k` on a signed integer: floor division by `2^k` (00_scope.md R9). -/
def asr (a : Int) (k : Nat) : Int := a.fdiv (2 ^ k)

/-- One byte of the display view: stream bit `k` of the byte is bit `7 - k`, an absent bit is 0 (20_memory.md R45). -/
def byteOfBits (b : Bits) : BitVec 8 :=
  BitVec.ofNat 8 ((List.range 8).foldl (fun acc k => 2 * acc + (b.getD k false).toNat) 0)

/-- The byte view of a stream, bytes filled most-significant bit first (20_memory.md R45); for display only, the last
byte padded with zeros (93_implementation_defined.md I20). -/
def byteView (b : Bits) : List (BitVec 8) :=
  (List.range ((b.length + 7) / 8)).map fun k => byteOfBits ((b.drop (8 * k)).take 8)

end Sys2Proof.Machine
end

