-- ==== Sys2Proof/Machine/Cause.lean ====
section
/-! DEFINITION. The fault causes of the hardware and their codes (60_exceptions.md R231). A cause is recorded in
STATUS by fault entry; it is not a stop of the model (Machine.Fault is). -/

namespace Sys2Proof.Machine

/-- The fault causes, by the names of 60_exceptions.md R231. -/
inductive Cause where
  | illegalCommand
  | unwrittenOperand
  | badDescriptor
  | fixedLength
  | uvlcRange
  | svlcRange
  | tuRange
  | egescRange
  | rpsPrecond
  | epoCapacity
  | epoPrecond
  | wpPrecond
  | sinkOverflow
  deriving DecidableEq, Repr

/-- The value recorded in STATUS.FCODE (60_exceptions.md R231). -/
def Cause.code : Cause → BitVec 8
  | .illegalCommand   => 0x01
  | .unwrittenOperand => 0x02
  | .badDescriptor    => 0x03
  | .fixedLength      => 0x04
  | .uvlcRange        => 0x05
  | .svlcRange        => 0x06
  | .tuRange          => 0x07
  | .egescRange       => 0x08
  | .rpsPrecond       => 0x09
  | .epoCapacity      => 0x0A
  | .epoPrecond       => 0x0B
  | .wpPrecond        => 0x0C
  | .sinkOverflow     => 0x0D

/-- What a code function of 00_scope.md R11 answers: a bit sequence, or the fault it raises. -/
abbrev Code := Except Cause Bits

end Sys2Proof.Machine
end

