-- ==== Sys2Proof/Config.lean ====
section
/-! DEFINITION. What one implementation fixes (the OPEN parameters of 00_scope.md R6, as plain data) and the free
values, constants without a body. The parameters' default values are in Machine/Params.lean. -/

namespace Sys2Proof

/-- One scaling-list size class (00_scope.md R6): `SL_NUM_LISTS[c]`, `SL_NUM_COEF[c]`, `SL_HAS_DC[c]`, `SL_SCAN[c]`. -/
structure SlClass where
  numLists : Nat
  numCoef  : Nat
  hasDc    : Bool
  scan     : List Nat
  deriving DecidableEq, Repr

/-- The parameters a model of VLCENC takes (00_scope.md R6, 20_memory.md R49, 93_implementation_defined.md I15-I18).
`wpMid` lists `WP_MID(bd)` for `bd = 1 .. 16`, the depths 43_weighted_pred.md R191 admits (log entry 19);
`SL_NUM_CLASSES` is the length of `slClasses`. -/
structure Params where
  base               : Nat
  nalHdrBits         : Nat
  epoSlackBytes      : Nat
  wpMid              : List Int
  slClasses          : List SlClass
  slStart            : Int
  slDcSeedsPredictor : Bool
  deriving DecidableEq, Repr

/-- FREE VALUE. The draws of 10_state.md R23 (93_implementation_defined.md I1): the value of an operand register while
it is unwritten. Applied to the counter `draws` of State (log entry 3). -/
opaque Config.freeWord : Nat → Word

/-- FREE VALUE. The bits `alignToByteWithOneBit` pads with, by the position's remainder mod 8 (20_memory.md R42,
91_not_in_source.md N3; log entry 9). -/
opaque Config.alignOnePattern : Nat → BitVec 8

/-- FREE VALUE. Whether `alignToByteWithOneBit` writes a whole byte when the stream is already aligned (20_memory.md
R42, 91_not_in_source.md N3; log entry 9). -/
opaque Config.alignOneWhenAligned : Bool

end Sys2Proof
end

