-- ==== Sys2Proof/Machine/Params.lean ====
section
/-! DEFINITION. The fixed limits of 00_scope.md R6 and the default values of its OPEN parameters. -/

namespace Sys2Proof.Machine

/-- `SINK_MAX_BITS`, the largest bit position of the sink (00_scope.md R6, 20_memory.md R41). -/
def sinkMaxBits : Nat := 2 ^ 32 - 1

/-- `SINK_MAX_NBITS`, the widest single sink write (00_scope.md R6, 20_memory.md R40). -/
def sinkMaxNbits : Nat := 32

/-- `UVLC_MAX` (00_scope.md R6, 40_vlc.md R101). -/
def uvlcMax : Int := 2 ^ 32 - 2

/-- `SVLC_MIN` (00_scope.md R6, 40_vlc.md R103). -/
def svlcMin : Int := -(2 ^ 31 - 1)

/-- `SVLC_MAX` (00_scope.md R6, 40_vlc.md R103). -/
def svlcMax : Int := 2 ^ 31 - 1

/-- `EGLVL_CAP` (00_scope.md R6, 40_vlc.md R106). -/
def eglvlCap : Nat := 13

/-- `EGESC_MAX_ORDER` (00_scope.md R6, 40_vlc.md R105). -/
def egescMaxOrder : Nat := 31

/-- `EPO_MAX_WIDTH` (00_scope.md R6, 42_entry_point.md R175). -/
def epoMaxWidth : Nat := 32

/-- `SL_DC_OFFSET` (00_scope.md R6, 44_scaling_list.md R213). -/
def slDcOffset : Int := 8

/-- `SL_WRAP_LO` (00_scope.md R6). -/
def slWrapLo : Int := -128

/-- `SL_WRAP_HI` (00_scope.md R6). -/
def slWrapHi : Int := 127

/-- The 4x4 up-right diagonal scan (44_scaling_list.md R212). -/
def scan16 : List Nat := [0, 4, 1, 8, 5, 2, 12, 9, 6, 3, 13, 10, 7, 14, 11, 15]

/-- The 8x8 up-right diagonal scan (44_scaling_list.md R212). -/
def scan64 : List Nat :=
  [0, 8, 1, 16, 9, 2, 24, 17, 10, 3, 32, 25, 18, 11, 4, 40] ++
  [33, 26, 19, 12, 5, 48, 41, 34, 27, 20, 13, 6, 56, 49, 42, 35] ++
  [28, 21, 14, 7, 57, 50, 43, 36, 29, 22, 15, 58, 51, 44, 37, 30] ++
  [23, 59, 52, 45, 38, 31, 60, 53, 46, 39, 61, 54, 47, 62, 55, 63]

/-- The four size classes 4x4, 8x8, 16x16, 32x32 (00_scope.md R6, 44_scaling_list.md R210). -/
def defaultSlClasses : List SlClass :=
  [{ numLists := 6, numCoef := 16, hasDc := false, scan := scan16 },
   { numLists := 6, numCoef := 64, hasDc := false, scan := scan64 },
   { numLists := 6, numCoef := 64, hasDc := true,  scan := scan64 },
   { numLists := 2, numCoef := 64, hasDc := true,  scan := scan64 }]

/-- `WP_MID(bd) = 2^(bd-1)` for `bd = 1 .. 16` (00_scope.md R6). -/
def defaultWpMid : List Int := (List.range 16).map fun k => 2 ^ k

/-- The defaults of 00_scope.md R6. `VLCENC_BASE` has none in the spec: 0 is a DESIGN CHOICE (log entry 8). -/
def defaultParams : Params where
  base := 0
  nalHdrBits := 16
  epoSlackBytes := 10
  wpMid := defaultWpMid
  slClasses := defaultSlClasses
  slStart := 8
  slDcSeedsPredictor := true

/-- `WP_MID(bd)`, defined for `bd` in [1, 16] (43_weighted_pred.md R191, R196). -/
def wpMidOf (p : Params) (bd : Nat) : Int := p.wpMid.getD (bd - 1) 0

/-- The parameters have the shape 00_scope.md R6 and 44_scaling_list.md R212 give them: a mid-gray value for every
admitted depth, and a scan that lists every raster index of its class once. -/
abbrev paramsWf (p : Params) : Prop :=
  p.wpMid.length = 16 ∧ ∀ c ∈ p.slClasses, c.scan.Perm (List.range c.numCoef)

end Sys2Proof.Machine
end

