-- ==== Sys2Proof/Machine/Codes.lean ====
section
/-! DEFINITION. The pure code functions every command uses (40_vlc.md section 1), and their concatenation. -/

namespace Sys2Proof.Machine

/-- `FIX(v, n)` (40_vlc.md R100). -/
def fix (v n : Nat) : Code :=
  if n = 0 ∨ sinkMaxNbits < n then .error .fixedLength else .ok (bitsMsb n v)

/-- The order-0 Exp-Golomb bits of `v >= 0`: with `codeword = v + 1` and `m = floor(log2(codeword))`, `m` zeros and
then `codeword` in `m + 1` bits (40_vlc.md R101). -/
def ueBits (v : Nat) : Bits :=
  let codeword := v + 1
  let m := floorLog2 codeword
  rep false m ++ bitsMsb (m + 1) codeword

/-- `UE(v)` (40_vlc.md R101). -/
def ue (v : Int) : Code :=
  if v < 0 ∨ uvlcMax < v then .error .uvlcRange else .ok (ueBits v.toNat)

/-- `zigzag(v)` (40_vlc.md R102). -/
def zigzag (v : Int) : Int := if v ≤ 0 then -2 * v else 2 * v - 1

/-- `SE(v)` (40_vlc.md R103). -/
def se (v : Int) : Code :=
  if v < svlcMin ∨ svlcMax < v then .error .svlcRange else ue (zigzag v)

/-- `TU(s, M)` (40_vlc.md R104). -/
def truncatedUnary (s M : Nat) : Code :=
  if M = 0 then .ok []
  else if M < s then .error .tuRange
  else .ok (rep true s ++ (if s < M then [false] else []))

/-- The loop of `EGK` (40_vlc.md R105), `fuel` bounding its turns: `c` is the count, `r` what remains of the symbol. -/
def egkLoop : Nat → Nat → Nat → Bits
  | 0, c, r => false :: bitsMsb c r
  | fuel + 1, c, r =>
    if 2 ^ c ≤ r then true :: egkLoop fuel (c + 1) (r - 2 ^ c) else false :: bitsMsb c r

/-- `EGK(s, k)` (40_vlc.md R105); the loop cannot reach `c = 32`, so 32 turns are enough. -/
def egk (s k : Nat) : Code :=
  if egescMaxOrder < k ∨ 2 ^ 32 - 2 ^ k ≤ s then .error .egescRange else .ok (egkLoop 32 k s)

/-- `EGL(s)` (40_vlc.md R106). -/
def egl (s : Nat) : Code :=
  if s < eglvlCap then .ok (rep true s ++ [false])
  else do
    let suffix ← egk (s - eglvlCap) 0
    pure (rep true eglvlCap ++ suffix)

/-- One bit (40_vlc.md R111). -/
def oneBit (b : Bool) : Code := .ok [b]

/-- `out <- out ++ c` for each code in order; the first fault is the command's (00_scope.md R11, 60_exceptions.md
R234). -/
def concatCodes : List Code → Code
  | [] => .ok []
  | c :: cs => do
    let a ← c
    let b ← concatCodes cs
    pure (a ++ b)

end Sys2Proof.Machine
end

