-- ==== Sys2Proof/Machine/Record.lean ====
section
/-! DEFINITION. The descriptor records (30_encoding.md R70-R73) and their shape rules (R74). Records are typed values:
`UInt32`, `Int32` and `UInt8` are the integer ranges section 2 of that file gives these names. -/

namespace Sys2Proof.Machine

/-- One inter-RPS indicator: `USED`, `DELTA` or `DROPPED` (30_encoding.md R70). -/
inductive RefIdc where
  | used
  | delta
  | dropped
  deriving DecidableEq, Repr

/-- The input of RPS (30_encoding.md R70). -/
structure RpsRecord where
  currIdx   : UInt32
  interRps  : Bool
  deltaRIdx : UInt32
  deltaRps  : Int32
  refIdc    : List RefIdc
  numNeg    : UInt32
  numPos    : UInt32
  numLT     : UInt32
  deltaPoc  : List Int32
  used      : List Bool
  ltEnabled : Bool
  maxPocLsb : UInt32
  deriving DecidableEq, Repr

/-- The slice's tiling mode (30_encoding.md R71). -/
inductive EpoMode where
  | none
  | tiles
  | wavefront
  deriving DecidableEq, Repr

/-- The input of EPO (30_encoding.md R71). -/
structure EpoRecord where
  mode          : EpoMode
  tileAddr      : List UInt32
  substreamBits : List UInt32
  deriving DecidableEq, Repr

/-- The slice type (30_encoding.md R72). -/
inductive SliceType where
  | i
  | p
  | b
  deriving DecidableEq, Repr

/-- The weighting mode (30_encoding.md R72). -/
inductive WpMode where
  | none
  | explicit
  | combined
  deriving DecidableEq, Repr

/-- One reference's weights and offsets (30_encoding.md R72). -/
structure WpEntry where
  lumaPresent   : Bool
  lumaWeight    : Int32
  lumaOffset    : Int32
  chromaPresent : Bool
  cbWeight      : Int32
  cbOffset      : Int32
  crWeight      : Int32
  crOffset      : Int32
  deriving DecidableEq, Repr

/-- The input of WP (30_encoding.md R72). -/
structure WpRecord where
  sliceType       : SliceType
  mode            : WpMode
  lumaLog2Denom   : UInt8
  chromaLog2Denom : UInt8
  bitDepthC       : UInt8
  l0              : List WpEntry
  l1              : List WpEntry
  lc              : List WpEntry
  deriving DecidableEq, Repr

/-- The input of SL (30_encoding.md R73): `coef[c][l]` in raster order, `dc[c][l]`. -/
structure SlRecord where
  coef : List (List (List Int32))
  dc   : List (List Int32)
  deriving DecidableEq, Repr

/-- A record of the descriptor store (20_memory.md R44). -/
inductive Record where
  | rps (r : RpsRecord)
  | epo (r : EpoRecord)
  | wp (r : WpRecord)
  | sl (r : SlRecord)
  deriving DecidableEq, Repr

/-- The shape rule of an `RpsRecord` (30_encoding.md R74). -/
def rpsShapeOk (r : RpsRecord) : Bool := r.used.length == r.deltaPoc.length

/-- The shape rule of class `c` of an `SlRecord` (30_encoding.md R74). -/
def slClassShapeOk (r : SlRecord) (c : Nat) (cls : SlClass) : Bool :=
  (r.coef.getD c []).length == cls.numLists &&
  (r.coef.getD c []).all (fun l => l.length == cls.numCoef) &&
  (!cls.hasDc || (decide (c < r.dc.length) && (r.dc.getD c []).length == cls.numLists))

/-- The shape rule of an `SlRecord` (30_encoding.md R74). -/
def slShapeOk (p : Params) (r : SlRecord) : Bool :=
  r.coef.length == p.slClasses.length &&
  p.slClasses.zipIdx.all (fun x => slClassShapeOk r x.2 x.1)

end Sys2Proof.Machine
end

