-- ==== Sys2Proof/Machine/State.lean ====
section
/-! DEFINITION. The state of the block and of the external agents it works against (10_state.md R22-R32), the reasons
the model stops, and the state after reset. -/

namespace Sys2Proof.Machine

/-- Where the MODEL stops with a fault. (The hardware's own faults are next states: `State.faultEntry`.) -/
inductive Fault where
  /-- Raised by a direct host write to the sink that would take it above `SINK_MAX_BITS`: 20_memory.md R41 gives that
  fault to commands only (60_exceptions.md R230) and the sink's own behaviour is outside the block (00_scope.md R4).
  SAFE: the model stops (log entry 10). -/
  | hostSinkOverflow
  deriving DecidableEq, Repr

/-- What the model gives no meaning. -/
inductive Refusal where
  /-- Raised by an arm of `exec` whose command has no meaning yet. SAFE. -/
  | notModelled (mnemonic : String)
  /-- Raised by a host access that is not an aligned 32-bit word of the register window: "a model refuses it"
  (20_memory.md R47, 10_state.md R31). SAFE. -/
  | hostAccess
  /-- Raised by a direct host write to the sink of a width outside 1..32, against the sink's own precondition
  (20_memory.md R40). SAFE (log entry 11). -/
  | sinkWriteWidth
  deriving DecidableEq, Repr

/-- An operand register: 32 bits and a valid bit (10_state.md R22-R24). -/
structure Operand where
  valid : Bool
  value : Word
  deriving DecidableEq, Repr

/-- The stored fields of STATUS (10_state.md R26, R29); BUSY and the reserved bits are hard-wired 0 in `Status.word`. -/
structure Status where
  fault : Bool
  fcode : BitVec 8
  fopc  : BitVec 8
  deriving DecidableEq, Repr

/-- The descriptor store (20_memory.md R44), the block's one addressed memory: (handle, record) pairs, handles strictly
rising, an unlisted handle naming nothing. -/
abbrev Memory := List (Nat × Record)

/-- The canonical form of the descriptor store: handles strictly rising, each a 32-bit handle. -/
abbrev Memory.wf (m : Memory) : Prop :=
  m.Pairwise (fun a b => a.1 < b.1) ∧ ∀ x ∈ m, x.1 < 2 ^ 32

/-- One host interaction (70_reset_and_hazards.md R272). Bus accesses name a byte address and a size in bytes, so that
an access the block does not have can be written down and is refused (20_memory.md R47). -/
inductive HostOp where
  /-- A write of the register window (R22). -/
  | write (addr size : Nat) (value : Word)
  /-- A read of the register window (R22). -/
  | read (addr size : Nat)
  /-- The reset input (R260). -/
  | reset
  /-- A direct write of a field to the sink, between commands (20_memory.md R40, R56). -/
  | sinkWrite (value : Word) (nbits : Nat)
  /-- `alignToByteWithZeros()` issued directly to the sink (20_memory.md R42). -/
  | sinkAlignZeros
  /-- `alignToByteWithOneBit()` issued directly to the sink (20_memory.md R42). -/
  | sinkAlignOne
  /-- The host's change of its own descriptor store: places or removes the record of a handle (20_memory.md R44, R54). -/
  | setRecord (handle : Word) (record : Option Record)
  deriving DecidableEq, Repr

/-- The state: OPA, OPB and STATUS are the block's own (10_state.md R29); `sink` and `store` are external (R30);
`params` is the implementation, changed by no step (00_scope.md R6); `host` (pending interactions, oldest first),
`reads` (data returned to host reads, oldest first) and `draws` (free values used) are the model's own
(log entries 1, 2, 3). -/
structure State where
  params : Params
  opa    : Operand
  opb    : Operand
  status : Status
  sink   : Bits
  store  : Memory
  host   : List HostOp
  reads  : List Word
  draws  : Nat
  deriving DecidableEq, Repr

/-- The state right after reset (10_state.md R32, 70_reset_and_hazards.md R262). The operand values are unspecified
there and the sink, the store, the pending interactions, the read data and the counter are not the block's: their
values here are DESIGN CHOICES (log entries 1 to 6, 8). -/
def State.reset : State where
  params := defaultParams
  opa := { valid := false, value := 0 }
  opb := { valid := false, value := 0 }
  status := { fault := false, fcode := 0, fopc := 0 }
  sink := []
  store := []
  host := []
  reads := []
  draws := 0

end Sys2Proof.Machine
end

