-- ==== Sys2Proof/Machine/Flags.lean ====
section
/-! DEFINITION. STATUS: its one flag, the word the host reads, and what fault entry and reset write (10_state.md R26,
R27; 60_exceptions.md R232). -/

namespace Sys2Proof.Machine

/-- STATUS = 0x00000000, no fault (10_state.md R32). -/
def Status.clear : Status := { fault := false, fcode := 0, fopc := 0 }

/-- The three fields as fault entry writes them (60_exceptions.md R232). -/
def Status.ofFault (c : Cause) (opc : BitVec 8) : Status := { fault := true, fcode := c.code, fopc := opc }

/-- The 32-bit word a host read of STATUS returns: FAULT in bit 0, BUSY (bit 1) and bits 7:2 hard-wired 0, FCODE in
15:8, FOPC in 23:16, bits 31:24 read as 0 (10_state.md R26). -/
def Status.word (t : Status) : Word :=
  BitVec.ofNat 32 (t.fault.toNat + t.fcode.toNat * 2 ^ 8 + t.fopc.toNat * 2 ^ 16)

/-- The faulted mode is exactly STATUS.FAULT = 1 (10_state.md R29). -/
def State.faulted (s : State) : Bool := s.status.fault

end Sys2Proof.Machine
end

