-- ==== Sys2Proof/Machine/Ops.lean ====
section
/-! DEFINITION. The named operations over the state: the descriptor store, the sink, fault entry and reset, the
completion of a command, and the four registers of the window. -/

namespace Sys2Proof.Machine

/-! ### The descriptor store -/

/-- `Rec(h)`: the record of a handle, or nothing (20_memory.md R44). -/
def Memory.read : Memory → Nat → Option Record
  | [], _ => none
  | (k, r) :: m, h => if k = h then some r else Memory.read m h

/-- The host's change of one handle; the result keeps the canonical form (20_memory.md R44, R54). -/
def Memory.set : Memory → Nat → Option Record → Memory
  | [], _, none => []
  | [], h, some r => [(h, r)]
  | (k, x) :: m, h, r =>
    if k < h then (k, x) :: Memory.set m h r
    else
      let rest := if k = h then m else (k, x) :: m
      match r with
      | none => rest
      | some r => (h, r) :: rest

/-! ### The sink -/

/-- `pos()`, the number of bits written so far by every writer (20_memory.md R41). -/
def State.pos (s : State) : Nat := s.sink.length

/-- `S <- S ++ out` (20_memory.md R43). -/
def State.append (s : State) (out : Bits) : State := { s with sink := s.sink ++ out }

/-- The zero bits `alignToByteWithZeros()` appends: up to the next multiple of 8, none if already there
(20_memory.md R42). -/
def alignZerosBits (pos : Nat) : Bits := rep false ((8 - pos % 8) % 8)

/-- The bits `alignToByteWithOneBit()` appends: free but for ending on a byte boundary (20_memory.md R42; log entry 9). -/
def alignOneBits (pos : Nat) : Bits :=
  let k := if pos % 8 = 0 then (if Config.alignOneWhenAligned then 8 else 0) else 8 - pos % 8
  bitsMsb k (Config.alignOnePattern (pos % 8)).toNat

/-! ### Fault entry, reset, and the completion of a command -/

/-- Fault entry (60_exceptions.md R232): STATUS.FAULT <- 1, FCODE <- the code of the cause, FOPC <- `w[7:0]`, nothing
else. -/
def State.faultEntry (s : State) (c : Cause) (opc : BitVec 8) : State :=
  { s with status := Status.ofFault c opc }

/-- The reset input (70_reset_and_hazards.md R260, R261): the valid bits and STATUS are cleared, the operand values
become unspecified (free values), the sink and the store are not touched. It is the only way out of the faulted state
(60_exceptions.md R236). -/
def State.assertReset (s : State) : State :=
  { s with
    opa := { valid := false, value := Config.freeWord s.draws }
    opb := { valid := false, value := Config.freeWord (s.draws + 1) }
    status := Status.clear
    draws := s.draws + 2 }

/-- What a CMD write does with a command whose steps 3 to 5 of 30_encoding.md R66 answered `r`: nothing while the block
is faulted (10_state.md R25, 60_exceptions.md R235); fault entry for a fault; `SINK_OVERFLOW` when the output does not
fit (R66 step 6); otherwise the whole output at once (R66 step 7, 60_exceptions.md R233). -/
def State.complete (s : State) (opc : BitVec 8) (r : Code) : State :=
  if s.faulted then s
  else
    match r with
    | .error c => s.faultEntry c opc
    | .ok out => if sinkMaxBits < s.pos + out.length then s.faultEntry .sinkOverflow opc else s.append out

/-! ### The register window -/

/-- The four registers of the window (10_state.md R22). -/
inductive Reg where
  | cmd
  | opa
  | opb
  | status
  deriving DecidableEq, Repr

/-- The register a bus access reaches: an aligned 32-bit word of the window at `VLCENC_BASE`, or none
(10_state.md R22, R31; 20_memory.md R47, R49). -/
def regAt (p : Params) (addr size : Nat) : Option Reg :=
  if size ≠ 4 then none
  else if addr = p.base then some .cmd
  else if addr = p.base + 0x4 then some .opa
  else if addr = p.base + 0x8 then some .opb
  else if addr = p.base + 0xC then some .status
  else none

/-- A host write of an operand register: the value, and valid becomes 1 (10_state.md R23). -/
def Operand.written (v : Word) : Operand := { valid := true, value := v }

/-- A host write of OPA (10_state.md R23). -/
def State.writeOpa (s : State) (v : Word) : State := { s with opa := Operand.written v }

/-- A host write of OPB (10_state.md R24). -/
def State.writeOpb (s : State) (v : Word) : State := { s with opb := Operand.written v }

/-- The block returns a word to the host (70_reset_and_hazards.md R272). -/
def State.respond (s : State) (v : Word) : State := { s with reads := s.reads ++ [v] }

/-- A host read of an operand register: its value when valid, otherwise a fresh draw (10_state.md R23,
93_implementation_defined.md I1). -/
def State.respondOperand (s : State) (o : Operand) : State :=
  if o.valid then s.respond o.value
  else { s.respond (Config.freeWord s.draws) with draws := s.draws + 1 }

/-- A host read of a register (10_state.md R22-R26); no read has a side effect on the block (20_memory.md R47). -/
def State.readReg (s : State) : Reg → State
  | .cmd => s.respond 0
  | .opa => s.respondOperand s.opa
  | .opb => s.respondOperand s.opb
  | .status => s.respond s.status.word

end Sys2Proof.Machine
end

