-- ==== Sys2Proof/Machine/Operands.lean ====
section
/-! DEFINITION. What a command reads: the operand registers in each interpretation (30_encoding.md R64) and the records
they name (R66 step 4). -/

namespace Sys2Proof.Machine

/-- A command's read of an operand register that is not valid raises `UNWRITTEN_OPERAND` (10_state.md R23, R24). -/
def Operand.get (o : Operand) : Except Cause Word :=
  if o.valid then .ok o.value else .error .unwrittenOperand

/-- `u32(OPA)` (00_scope.md R9). -/
def State.opaU32 (s : State) : Except Cause Nat := s.opa.get.map BitVec.toNat

/-- `s32(OPA)`, two's complement (00_scope.md R9). -/
def State.opaS32 (s : State) : Except Cause Int := s.opa.get.map BitVec.toInt

/-- `u32(OPB)` (00_scope.md R9). -/
def State.opbU32 (s : State) : Except Cause Nat := s.opb.get.map BitVec.toNat

/-- An `RpsRecord` of the right shape, or `BAD_DESCRIPTOR` (20_memory.md R44, 30_encoding.md R66 step 4). -/
def asRps : Option Record → Except Cause RpsRecord
  | some (.rps r) => if rpsShapeOk r then .ok r else .error .badDescriptor
  | some (.epo _) => .error .badDescriptor
  | some (.wp _) => .error .badDescriptor
  | some (.sl _) => .error .badDescriptor
  | none => .error .badDescriptor

/-- An `EpoRecord`, or `BAD_DESCRIPTOR` (20_memory.md R44, 30_encoding.md R66 step 4). -/
def asEpo : Option Record → Except Cause EpoRecord
  | some (.epo r) => .ok r
  | some (.rps _) => .error .badDescriptor
  | some (.wp _) => .error .badDescriptor
  | some (.sl _) => .error .badDescriptor
  | none => .error .badDescriptor

/-- A `WpRecord`, or `BAD_DESCRIPTOR` (20_memory.md R44, 30_encoding.md R66 step 4). -/
def asWp : Option Record → Except Cause WpRecord
  | some (.wp r) => .ok r
  | some (.rps _) => .error .badDescriptor
  | some (.epo _) => .error .badDescriptor
  | some (.sl _) => .error .badDescriptor
  | none => .error .badDescriptor

/-- An `SlRecord` of the right shape, or `BAD_DESCRIPTOR` (20_memory.md R44, 30_encoding.md R66 step 4). -/
def asSl (p : Params) : Option Record → Except Cause SlRecord
  | some (.sl r) => if slShapeOk p r then .ok r else .error .badDescriptor
  | some (.rps _) => .error .badDescriptor
  | some (.epo _) => .error .badDescriptor
  | some (.wp _) => .error .badDescriptor
  | none => .error .badDescriptor

/-- The record OPA names (20_memory.md R44): OPA written first, then `Rec(u32(OPA))` once (30_encoding.md R66 steps 3
and 4). -/
def State.named (s : State) : Except Cause (Option Record) := s.opaU32.map s.store.read

/-- The record of an RPS command. -/
def State.rpsOperand (s : State) : Except Cause RpsRecord := do asRps (← s.named)

/-- The record of an EPO command. -/
def State.epoOperand (s : State) : Except Cause EpoRecord := do asEpo (← s.named)

/-- The record of a WP command. -/
def State.wpOperand (s : State) : Except Cause WpRecord := do asWp (← s.named)

/-- The record of an SL command. -/
def State.slOperand (s : State) : Except Cause SlRecord := do asSl s.params (← s.named)

end Sys2Proof.Machine
end

