-- ==== Sys2Proof/Machine/Epo.lean ====
section
/-! DEFINITION. The entry-point offset command (42_entry_point.md). -/

namespace Sys2Proof.Machine

/-- Successive differences of the cumulative tile addresses, the first against 0 (42_entry_point.md R172). -/
def tileOffsets (prev : Int) : List Int → List Int
  | [] => []
  | a :: as => (a - prev) :: tileOffsets a as

/-- The list without its trailing zero elements (42_entry_point.md R173). -/
def trimZeros : List Nat → List Nat
  | [] => []
  | x :: xs =>
    match trimZeros xs with
    | [] => if x = 0 then [] else [x]
    | y :: ys => x :: y :: ys

/-- The offsets before correction (42_entry_point.md R172, R173). -/
def epoOffsets (r : EpoRecord) : Except Cause (List Nat) :=
  match r.mode with
  | .none => .ok []
  | .tiles =>
    let off := tileOffsets 0 (r.tileAddr.map fun a => (a.toNat : Int))
    if off.any (fun d => decide (d < 0)) then .error .epoPrecond else .ok (off.map Int.toNat)
  | .wavefront => .ok ((trimZeros (r.substreamBits.map UInt32.toNat)).map fun n => n / 8)

/-- The running maximum, 0 for no entry (42_entry_point.md R172, R173). -/
def maxOffset (off : List Nat) : Nat := off.foldl max 0

/-- The adjusted maximum `M` (42_entry_point.md R174). -/
def epoAdjustedMax (p : Params) (B0 : Nat) (off : List Nat) : Nat :=
  maxOffset off + (B0 + p.nalHdrBits) / 8 + p.epoSlackBytes

/-- Count, length and offsets, the first offset corrected by the bits ahead of it (42_entry_point.md R176, R177); `w`
is the width. -/
def epoTable (p : Params) (B0 w : Nat) (off : List Nat) : Code := do
  let count ← ue off.length
  match off with
  | [] => pure count
  | first :: rest =>
    if w = 0 then .error .epoCapacity
    else do
      let length ← ue ((w : Int) - 1)
      let P := B0 + (count ++ length).length
      let first' := first + (P + p.nalHdrBits + off.length * w) / 8
      if 2 ^ w ≤ first' then .error .epoCapacity
      else do
        let offsets ← concatCodes ((first' :: rest).map fun o => fix o w)
        pure (count ++ length ++ offsets)

/-- `EPOBITS(r, B0)` (42_entry_point.md R178). -/
def epoBits (p : Params) (r : EpoRecord) (B0 : Nat) : Code :=
  match r.mode with
  | .none => .ok []
  | .tiles | .wavefront => do
    let off ← epoOffsets r
    let w := bitlen (epoAdjustedMax p B0 off)
    if epoMaxWidth < w then .error .epoCapacity else epoTable p B0 w off

/-- EPO: the one command that reads `pos()` (42_entry_point.md R180). -/
def execEpo (s : State) : Host.Outcome State Fault Refusal :=
  .next (s.complete Instr.epo.opcode (do
    let r ← s.epoOperand
    epoBits s.params r s.pos))

end Sys2Proof.Machine
end

