-- ==== Sys2Proof/Machine/Rps.lean ====
section
/-! DEFINITION. The reference picture set command (41_rps.md). -/

namespace Sys2Proof.Machine

/-- The preconditions, in order (41_rps.md R142). -/
def rpsPrecond (r : RpsRecord) : Except Cause Unit :=
  if r.numNeg.toNat + r.numPos.toNat + r.numLT.toNat ≠ r.deltaPoc.length then .error .rpsPrecond
  else if r.interRps = true ∧ ¬(1 ≤ r.deltaRIdx.toNat ∧ r.deltaRIdx.toNat ≤ r.currIdx.toNat) then .error .rpsPrecond
  else if r.ltEnabled = true ∧ 0 < r.numLT.toNat ∧ r.maxPocLsb.toNat = 0 then .error .rpsPrecond
  else .ok ()

/-- The entries: delta-POC and used flag, in stored order (41_rps.md R140). -/
def rpsEntries (r : RpsRecord) : List (Int × Bool) := (r.deltaPoc.map Int32.toInt).zip r.used

/-- The indicator code of one element of `refIdc` (41_rps.md R145). -/
def refIdcCode : RefIdc → Code
  | .used => .ok [true]
  | .delta => .ok [false, true]
  | .dropped => .ok [false, false]

/-- The inter-RPS form after the form flag (41_rps.md R144). -/
def rpsInterCodes (r : RpsRecord) : List Code :=
  [ue ((r.deltaRIdx.toNat : Int) - 1), oneBit (decide (r.deltaRps.toInt < 0)),
   ue ((r.deltaRps.toInt.natAbs : Int) - 1)] ++ r.refIdc.map refIdcCode

/-- The negative group, `prev` being the delta-POC before (41_rps.md R147). -/
def rpsNegCodes (prev : Int) : List (Int × Bool) → List Code
  | [] => []
  | (d, u) :: es => ue (prev - d - 1) :: oneBit u :: rpsNegCodes d es

/-- The positive group, `prev` being the delta-POC before (41_rps.md R148). -/
def rpsPosCodes (prev : Int) : List (Int × Bool) → List Code
  | [] => []
  | (d, u) :: es => ue (d - prev - 1) :: oneBit u :: rpsPosCodes d es

/-- The explicit form after the form flag (41_rps.md R146-R148). -/
def rpsExplicitCodes (r : RpsRecord) : List Code :=
  [ue r.numNeg.toNat, ue r.numPos.toNat] ++
  rpsNegCodes 0 ((rpsEntries r).take r.numNeg.toNat) ++
  rpsPosCodes 0 (((rpsEntries r).drop r.numNeg.toNat).take r.numPos.toNat)

/-- The MSB cycle of a long-term entry (41_rps.md R153-R155): `first` marks the entry coded first, `prevRaw` is the
delta-POC of the entry coded just before, `prevCum` and `cur` its and this entry's cumulative LSB. -/
def rpsCycle (L : Int) (first : Bool) (prevRaw prevCum cur raw : Int) : Int :=
  if first then (-raw).tdiv L - 1
  else if prevCum ≠ cur then
    let cycle := (-raw).tdiv L - 1
    if (prevCum = L - 1 ∧ cur = L + 1) ∨ (prevCum = L - 2 ∧ cur = L) then cycle - 1 else cycle
  else (prevRaw - raw).tdiv L - 1

/-- MSB-cycle emission: a presence flag, and the cycle when it is not negative (41_rps.md R156). -/
def rpsCycleCodes (cycle : Int) : List Code :=
  if 0 ≤ cycle then [oneBit true, ue cycle] else [oneBit false]

/-- The long-term walk with its running state (41_rps.md R150-R157), over the entries in coding order. -/
def rpsLtCodes (L : Int) (first : Bool) (prevRaw prevCum : Int) : List (Int × Bool) → List Code
  | [] => []
  | (raw, u) :: es =>
    let lsb := (L - raw + prevRaw).tmod L
    let cur := lsb + prevCum
    [ue lsb] ++ rpsCycleCodes (rpsCycle L first prevRaw prevCum cur raw) ++ [oneBit u] ++
    rpsLtCodes L false raw cur es

/-- The long-term part: the count, then the entries `n-1, n-2, ..., n-numLT` (41_rps.md R149, R151). -/
def rpsLongTermCodes (r : RpsRecord) : List Code :=
  if r.ltEnabled then
    ue r.numLT.toNat :: rpsLtCodes r.maxPocLsb.toNat true 0 0 ((rpsEntries r).reverse.take r.numLT.toNat)
  else []

/-- `RPSBITS(r)`, after the checks of R142 (41_rps.md R158). -/
def rpsBits (r : RpsRecord) : Code :=
  concatCodes ([oneBit r.interRps] ++
    (if r.interRps then rpsInterCodes r else rpsExplicitCodes r) ++ rpsLongTermCodes r)

/-- RPS (41_rps.md R160). -/
def execRps (s : State) : Host.Outcome State Fault Refusal :=
  .next (s.complete Instr.rps.opcode (do
    let r ← s.rpsOperand
    rpsPrecond r
    rpsBits r))

end Sys2Proof.Machine
end

