-- ==== Sys2Proof/Machine/Sl.lean ====
section
/-! DEFINITION. The scaling-list command (44_scaling_list.md). -/

namespace Sys2Proof.Machine

/-- `coef[c][l]` (30_encoding.md R73). -/
def slCoef (r : SlRecord) (c l : Nat) : List Int := ((r.coef.getD c []).getD l []).map Int32.toInt

/-- `dc[c][l]` (30_encoding.md R73). -/
def slDc (r : SlRecord) (c l : Nat) : Int := ((r.dc.getD c []).getD l 0).toInt

/-- The lists `j` and `l` of class `c` match: equal coefficients and, where the class carries one, equal DC
(44_scaling_list.md R211). -/
def slMatches (r : SlRecord) (cls : SlClass) (c j l : Nat) : Bool :=
  decide (slCoef r c j = slCoef r c l) && (!cls.hasDc || decide (slDc r c j = slDc r c l))

/-- The largest index below a bound that passes a test, scanning from the most recent (44_scaling_list.md R211). -/
def lastBelow (test : Nat → Bool) : Nat → Option Nat
  | 0 => none
  | j + 1 => if test j then some j else lastBelow test j

/-- The difference wrapped once (44_scaling_list.md R216). -/
def wrapOnce (d : Int) : Int :=
  if slWrapHi < d then d - 256 else if d < slWrapLo then d + 256 else d

/-- The coefficient walk over the scanned values (44_scaling_list.md R216). -/
def slWalkCodes (pred : Int) : List Int → List Code
  | [] => []
  | v :: vs => se (wrapOnce (v - pred)) :: slWalkCodes v vs

/-- The coefficients of a list in scan order (44_scaling_list.md R212). -/
def slScanned (cls : SlClass) (coef : List Int) : List Int := cls.scan.map fun i => coef.getD i 0

/-- DPCM mode: the header, the sentinel, the predictor's start and the walk (44_scaling_list.md R213-R216). -/
def slDpcmCodes (p : Params) (r : SlRecord) (cls : SlClass) (c l : Nat) : List Code :=
  let values := slScanned cls (slCoef r c l)
  if cls.hasDc then
    [oneBit true, se (slDc r c l - slDcOffset)] ++
    (if slDc r c l - slDcOffset = -8 then []
     else slWalkCodes (if p.slDcSeedsPredictor then slDc r c l else p.slStart) values)
  else oneBit true :: slWalkCodes p.slStart values

/-- The code of list `l` of class `c`: copy mode or DPCM mode (44_scaling_list.md R211, R213). -/
def slListCodes (p : Params) (r : SlRecord) (cls : SlClass) (c l : Nat) : List Code :=
  match lastBelow (fun j => slMatches r cls c j l) l with
  | some j => [oneBit false, ue ((l : Int) - j - 1)]
  | none => slDpcmCodes p r cls c l

/-- `SLBITS(r)`: classes and lists in increasing order (44_scaling_list.md R210, R217). -/
def slBits (p : Params) (r : SlRecord) : Code :=
  concatCodes (p.slClasses.zipIdx.flatMap fun x =>
    (List.range x.1.numLists).flatMap fun l => slListCodes p r x.1 x.2 l)

/-- SL (44_scaling_list.md R220). -/
def execSl (s : State) : Host.Outcome State Fault Refusal :=
  .next (s.complete Instr.sl.opcode (do
    let r ← s.slOperand
    slBits s.params r))

end Sys2Proof.Machine
end

