-- ==== Sys2Proof/Machine/Vlc.lean ====
section
/-! DEFINITION. The seven primitive commands (40_vlc.md section 2). -/

namespace Sys2Proof.Machine

/-- FIXED (40_vlc.md R110). -/
def execFixed (nbits : Nat) (s : State) : Host.Outcome State Fault Refusal :=
  .next (s.complete (Instr.fixed nbits).opcode (do
    let v ← s.opaU32
    fix v nbits))

/-- FLAG: the one bit `OPA[0]` (40_vlc.md R111). -/
def execFlag (s : State) : Host.Outcome State Fault Refusal :=
  .next (s.complete Instr.flag.opcode (do
    let v ← s.opaU32
    fix v 1))

/-- UVLC (40_vlc.md R112). -/
def execUvlc (s : State) : Host.Outcome State Fault Refusal :=
  .next (s.complete Instr.uvlc.opcode (do
    let v ← s.opaU32
    ue v))

/-- SVLC (40_vlc.md R113). -/
def execSvlc (s : State) : Host.Outcome State Fault Refusal :=
  .next (s.complete Instr.svlc.opcode (do
    let v ← s.opaS32
    se v))

/-- TU: both operands are read even when `maxSymbol = 0` (40_vlc.md R114). -/
def execTu (s : State) : Host.Outcome State Fault Refusal :=
  .next (s.complete Instr.tu.opcode (do
    let symbol ← s.opaU32
    let maxSymbol ← s.opbU32
    truncatedUnary symbol maxSymbol))

/-- EGLVL (40_vlc.md R115). -/
def execEglvl (s : State) : Host.Outcome State Fault Refusal :=
  .next (s.complete Instr.eglvl.opcode (do
    let symbol ← s.opaU32
    egl symbol))

/-- EGESC (40_vlc.md R116). -/
def execEgesc (order : Nat) (s : State) : Host.Outcome State Fault Refusal :=
  .next (s.complete (Instr.egesc order).opcode (do
    let symbol ← s.opaU32
    egk symbol order))

end Sys2Proof.Machine
end

