-- ==== Sys2Proof/Machine/Wp.lean ====
section
/-! DEFINITION. The weighted-prediction table command (43_weighted_pred.md). -/

namespace Sys2Proof.Machine

/-- The entries coded, in order (43_weighted_pred.md R190). -/
def wpSequence (r : WpRecord) : Except Cause (List WpEntry) :=
  match r.sliceType, r.mode with
  | .i, .none | .i, .explicit | .i, .combined => .ok []
  | .p, .none | .b, .none => .ok []
  | .p, .explicit => .ok r.l0
  | .b, .explicit => .ok (r.l0 ++ r.l1)
  | .b, .combined => .ok r.lc
  | .p, .combined => .error .wpPrecond

/-- The bit depth check (43_weighted_pred.md R191). -/
def wpDepthCheck (r : WpRecord) (seq : List WpEntry) : Except Cause Unit :=
  if seq ≠ [] ∧ ¬(1 ≤ r.bitDepthC.toNat ∧ r.bitDepthC.toNat ≤ 16) then .error .wpPrecond else .ok ()

/-- The denominators (43_weighted_pred.md R192). -/
def wpDenomCodes (r : WpRecord) : List Code :=
  [ue r.lumaLog2Denom.toNat, se ((r.chromaLog2Denom.toNat : Int) - r.lumaLog2Denom.toNat)]

/-- The luma part of an entry (43_weighted_pred.md R193). -/
def wpLumaCodes (r : WpRecord) (e : WpEntry) : List Code :=
  oneBit e.lumaPresent ::
  (if e.lumaPresent then
    [se (e.lumaWeight.toInt - 2 ^ r.lumaLog2Denom.toNat), se e.lumaOffset.toInt]
  else [])

/-- One chroma component: the weight delta and the normalised offset delta (43_weighted_pred.md R195, R196). -/
def wpChromaComponent (p : Params) (r : WpRecord) (wgt off : Int) : List Code :=
  let mid := wpMidOf p r.bitDepthC.toNat
  [se (wgt - 2 ^ r.chromaLog2Denom.toNat),
   se (off + asr (mid * wgt) r.chromaLog2Denom.toNat - mid)]

/-- The chroma part of an entry: Cb, then Cr (43_weighted_pred.md R195). -/
def wpChromaCodes (p : Params) (r : WpRecord) (e : WpEntry) : List Code :=
  oneBit e.chromaPresent ::
  (if e.chromaPresent then
    wpChromaComponent p r e.cbWeight.toInt e.cbOffset.toInt ++
    wpChromaComponent p r e.crWeight.toInt e.crOffset.toInt
  else [])

/-- The entries with the working state `denomCoded` (43_weighted_pred.md R194, R197). -/
def wpEntriesCodes (p : Params) (r : WpRecord) (denomCoded : Bool) : List WpEntry → List Code
  | [] => []
  | e :: es =>
    (if denomCoded then [] else wpDenomCodes r) ++ wpLumaCodes r e ++ wpChromaCodes p r e ++
    wpEntriesCodes p r true es

/-- `WPBITS(r)` (43_weighted_pred.md R197). -/
def wpBits (p : Params) (r : WpRecord) : Code := do
  let seq ← wpSequence r
  wpDepthCheck r seq
  concatCodes (wpEntriesCodes p r false seq)

/-- WP (43_weighted_pred.md R200). -/
def execWp (s : State) : Host.Outcome State Fault Refusal :=
  .next (s.complete Instr.wp.opcode (do
    let r ← s.wpOperand
    wpBits s.params r))

end Sys2Proof.Machine
end

