-- ==== Sys2Proof/Machine/Dispatch.lean ====
section
/-! DEFINITION. One arm per command. -/

namespace Sys2Proof.Machine

def exec (i : Instr) (s : State) : Host.Outcome State Fault Refusal :=
  match i with
  | .fixed nbits => Sys2Proof.Machine.execFixed nbits s
  | .flag => Sys2Proof.Machine.execFlag s
  | .uvlc => Sys2Proof.Machine.execUvlc s
  | .svlc => Sys2Proof.Machine.execSvlc s
  | .tu => Sys2Proof.Machine.execTu s
  | .eglvl => Sys2Proof.Machine.execEglvl s
  | .egesc order => Sys2Proof.Machine.execEgesc order s
  | .rps => Sys2Proof.Machine.execRps s
  | .epo => Sys2Proof.Machine.execEpo s
  | .wp => Sys2Proof.Machine.execWp s
  | .sl => Sys2Proof.Machine.execSl s

end Sys2Proof.Machine
end

