-- ==== Sys2Proof/Machine/HostPort.lean ====
section
/-! DEFINITION. The host interactions (70_reset_and_hazards.md R272), each one step. -/

namespace Sys2Proof.Machine

/-- A host write of word `w` to CMD (10_state.md R25; 30_encoding.md R66): an illegal word raises `ILLEGAL_COMMAND`
(unless the block is faulted, `State.complete`), any other word runs its command. -/
def commandWrite (w : Word) (s : State) : Host.Outcome State Fault Refusal :=
  match decode w with
  | .error _ => .next (s.complete (opcField w) (.error .illegalCommand))
  | .ok i => exec i s

/-- A host write of a register (10_state.md R22-R26): STATUS is read-only and ignores it. -/
def writeReg (s : State) (v : Word) : Reg → Host.Outcome State Fault Refusal
  | .cmd => commandWrite v s
  | .opa => .next (s.writeOpa v)
  | .opb => .next (s.writeOpb v)
  | .status => .next s

/-- A direct append by the host (20_memory.md R56), within the sink's capacity (R41; log entry 10). -/
def hostAppend (s : State) (out : Bits) : Host.Outcome State Fault Refusal :=
  if sinkMaxBits < s.pos + out.length then .fault .hostSinkOverflow else .next (s.append out)

/-- One host interaction (70_reset_and_hazards.md R272). -/
def hostStep (op : HostOp) (s : State) : Host.Outcome State Fault Refusal :=
  match op with
  | .write addr size v =>
    match regAt s.params addr size with
    | none => .refused .hostAccess
    | some r => writeReg s v r
  | .read addr size =>
    match regAt s.params addr size with
    | none => .refused .hostAccess
    | some r => .next (s.readReg r)
  | .reset => .next s.assertReset
  | .sinkWrite v n =>
    if n = 0 ∨ sinkMaxNbits < n then .refused .sinkWriteWidth else hostAppend s (bitsMsb n v.toNat)
  | .sinkAlignZeros => hostAppend s (alignZerosBits s.pos)
  | .sinkAlignOne => hostAppend s (alignOneBits s.pos)
  | .setRecord h r => .next { s with store := s.store.set h.toNat r }

end Sys2Proof.Machine
end

