-- ==== Sys2Proof/Machine/Step.lean ====
section
/-! DEFINITION. One step: the oldest pending host interaction is served. -/

namespace Sys2Proof.Machine

/-- The block serves the oldest pending host interaction; with none pending it is idle and holds its state
(70_reset_and_hazards.md R266, R273; 60_exceptions.md R243; log entry 1). -/
def step (s : State) : Host.Outcome State Fault Refusal :=
  match s.host with
  | [] => .next s
  | op :: rest => hostStep op { s with host := rest }

/-- `s` with a host write of the command word to CMD as its very next interaction: commands are not fetched, they are
written by the host (10_state.md R21, R25; log entry 1). -/
def State.withFetchWord (s : State) (nbits w : Nat) : State :=
  { s with host := .write s.params.base 4 (BitVec.ofNat 32 (w % 2 ^ nbits)) :: s.host }

end Sys2Proof.Machine
end

