-- ==== Sys2Proof/Machine/Assembler.lean ====
section
/-! DEFINITION. The assembly syntax of host programs and its pseudo-instructions (30_encoding.md R80, R81). -/

namespace Sys2Proof.Machine

/-- A statement of a host program (30_encoding.md R80). -/
inductive Stmt where
  | wrOpa (v : Word)
  | wrOpb (v : Word)
  | rdStatus
  | command (i : Instr)
  deriving DecidableEq, Repr

/-- The host interaction a statement is, for a window at `base` (30_encoding.md R80, 10_state.md R22). -/
def Stmt.op (base : Nat) : Stmt → HostOp
  | .wrOpa v => .write (base + 0x4) 4 v
  | .wrOpb v => .write (base + 0x8) 4 v
  | .rdStatus => .read (base + 0xC) 4
  | .command i => .write base 4 (encode i)

/-- A pseudo-instruction (30_encoding.md R81). -/
inductive Pseudo where
  | putU (v : Word) (n : Nat)
  | putF (b : Word)
  | putUe (v : Word)
  | putSe (v : Word)
  | putTu (s m : Word)
  | putEgl (s : Word)
  | putEgk (s : Word) (k : Nat)
  | encRps (h : Word)
  | encEpo (h : Word)
  | encWp (h : Word)
  | encSl (h : Word)
  deriving DecidableEq, Repr

/-- The exact expansion of a pseudo-instruction (30_encoding.md R81). -/
def Pseudo.expand : Pseudo → List Stmt
  | .putU v n => [.wrOpa v, .command (.fixed n)]
  | .putF b => [.wrOpa b, .command .flag]
  | .putUe v => [.wrOpa v, .command .uvlc]
  | .putSe v => [.wrOpa v, .command .svlc]
  | .putTu s m => [.wrOpa s, .wrOpb m, .command .tu]
  | .putEgl s => [.wrOpa s, .command .eglvl]
  | .putEgk s k => [.wrOpa s, .command (.egesc k)]
  | .encRps h => [.wrOpa h, .command .rps]
  | .encEpo h => [.wrOpa h, .command .epo]
  | .encWp h => [.wrOpa h, .command .wp]
  | .encSl h => [.wrOpa h, .command .sl]

/-! ### The text (30_encoding.md R80): one statement a line, `; text` a comment -/

/-- A line without its comment. -/
def stripComment : List Char → List Char
  | [] => []
  | c :: cs => if c = ';' then [] else c :: stripComment cs

/-- The tokens of a line: runs of characters between spaces, a comma a token of its own; `acc` holds the run so far,
last character first. -/
def tokensAux (acc : List Char) : List Char → List (List Char)
  | [] => if acc = [] then [] else [acc.reverse]
  | c :: cs =>
    let run := if acc = [] then [] else [acc.reverse]
    if c = ' ' ∨ c = '\t' then run ++ tokensAux [] cs
    else if c = ',' then run ++ [[',']] ++ tokensAux [] cs
    else tokensAux (c :: acc) cs

/-- The tokens of a line, its comment dropped. -/
def tokens (line : List Char) : List (List Char) := tokensAux [] (stripComment line)

/-- A digit of a number in base 10 or 16. -/
def digitOf (base : Nat) (c : Char) : Option Nat :=
  let n := c.toNat
  let d := if 48 ≤ n ∧ n ≤ 57 then some (n - 48)
    else if 97 ≤ n ∧ n ≤ 102 then some (n - 87)
    else if 65 ≤ n ∧ n ≤ 70 then some (n - 55)
    else none
  match d with
  | some v => if v < base then some v else none
  | none => none

/-- The value of a run of digits after `acc`. -/
def digitsValue (base acc : Nat) : List Char → Option Nat
  | [] => some acc
  | c :: cs =>
    match digitOf base c with
    | some d => digitsValue base (base * acc + d) cs
    | none => none

/-- A number: decimal, or hexadecimal after `0x`. -/
def parseNat : List Char → Option Nat
  | [] => none
  | '0' :: 'x' :: c :: cs => digitsValue 16 0 (c :: cs)
  | c :: cs => digitsValue 10 0 (c :: cs)

/-- A 32-bit immediate: decimal, hexadecimal, or negative decimal meaning the 32-bit two's complement. -/
def parseImm32 : List Char → Option Word
  | '-' :: c :: cs =>
    match digitsValue 10 0 (c :: cs) with
    | some n => if n ≤ 2 ^ 31 then some (BitVec.ofInt 32 (-(n : Int))) else none
    | none => none
  | t =>
    match parseNat t with
    | some n => if n < 2 ^ 32 then some (BitVec.ofNat 32 n) else none
    | none => none

/-- The 6-bit immediate `N` of format CN. -/
def parseImm6 (t : List Char) : Option Nat :=
  match parseNat t with
  | some n => if n < 64 then some n else none
  | none => none

/-- The command mnemonics without an immediate, in lower case (30_encoding.md R80). -/
def plainCommands : List (List Char × Instr) :=
  [(['f', 'l', 'a', 'g'], .flag), (['u', 'v', 'l', 'c'], .uvlc), (['s', 'v', 'l', 'c'], .svlc), (['t', 'u'], .tu),
   (['e', 'g', 'l', 'v', 'l'], .eglvl), (['r', 'p', 's'], .rps), (['e', 'p', 'o'], .epo), (['w', 'p'], .wp),
   (['s', 'l'], .sl)]

/-- The pseudo-instructions of one 32-bit operand (30_encoding.md R81). -/
def unaryPseudos : List (List Char × (Word → Pseudo)) :=
  [(['p', 'u', 't', '.', 'f'], .putF), (['p', 'u', 't', '.', 'u', 'e'], .putUe), (['p', 'u', 't', '.', 's', 'e'], .putSe),
   (['p', 'u', 't', '.', 'e', 'g', 'l'], .putEgl), (['e', 'n', 'c', '.', 'r', 'p', 's'], .encRps),
   (['e', 'n', 'c', '.', 'e', 'p', 'o'], .encEpo), (['e', 'n', 'c', '.', 'w', 'p'], .encWp),
   (['e', 'n', 'c', '.', 's', 'l'], .encSl)]

/-- The entry of a name in a list. -/
def lookupName {α : Type} (t : List Char) : List (List Char × α) → Option α
  | [] => none
  | (n, a) :: rest => if n = t then some a else lookupName t rest

/-- The statements of one line: none for an empty line, one for a statement, a pseudo-instruction's expansion. A line
that is none of these is no program text. -/
def parseLine (line : List Char) : Option (List Stmt) :=
  match tokens line with
  | [] => some []
  | [m] => (lookupName m plainCommands).map fun i => [.command i]
  | [m, a] =>
    if m = ['r', 'd'] then (if a = ['s', 't', 'a', 't', 'u', 's'] then some [.rdStatus] else none)
    else if m = ['f', 'i', 'x', 'e', 'd'] then (parseImm6 a).map fun n => [.command (.fixed n)]
    else if m = ['e', 'g', 'e', 's', 'c'] then (parseImm6 a).map fun n => [.command (.egesc n)]
    else Option.map₂ (fun f v => (f v).expand) (lookupName m unaryPseudos) (parseImm32 a)
  | [m, a, [','], b] =>
    if m = ['w', 'r'] then
      (if a = ['o', 'p', 'a'] then (parseImm32 b).map fun v => [.wrOpa v]
       else if a = ['o', 'p', 'b'] then (parseImm32 b).map fun v => [.wrOpb v]
       else none)
    else if m = ['p', 'u', 't', '.', 'u'] then Option.map₂ (fun v n => (Pseudo.putU v n).expand) (parseImm32 a) (parseImm6 b)
    else if m = ['p', 'u', 't', '.', 't', 'u'] then
      Option.map₂ (fun s k => (Pseudo.putTu s k).expand) (parseImm32 a) (parseImm32 b)
    else if m = ['p', 'u', 't', '.', 'e', 'g', 'k'] then
      Option.map₂ (fun s k => (Pseudo.putEgk s k).expand) (parseImm32 a) (parseImm6 b)
    else none
  | _ => none

/-- The lines of a text; `acc` holds the line so far, last character first. -/
def linesAux (acc : List Char) : List Char → List (List Char)
  | [] => [acc.reverse]
  | c :: cs => if c = '\n' then acc.reverse :: linesAux [] cs else linesAux (c :: acc) cs

/-- The statements of a list of lines, in order. -/
def parseLines : List (List Char) → Option (List Stmt)
  | [] => some []
  | l :: ls => Option.map₂ List.append (parseLine l) (parseLines ls)

/-- A host program's text assembled to host interactions (30_encoding.md R80, R81). -/
def assemble (base : Nat) (text : List Char) : Option (List HostOp) :=
  (parseLines (linesAux [] text)).map fun stmts => stmts.map (Stmt.op base)

end Sys2Proof.Machine
end

