-- ==== Sys2Proof/Safety.lean ====
section
/-! DEFINITION. The terms the claims use: the invariant, the two ways a command ends, the opcode table as data, the
output codes in closed form (30_encoding.md R75), the codec outputs as indexed lists of fields, and decoders for the
properties of 40_vlc.md R107. None of it is used by the machine. -/

namespace Sys2Proof.Safety

open Sys2Proof.Machine

/-! ### The invariant -/

/-- STATUS as only reset and fault entry write it (10_state.md R26): FCODE and FOPC are 0 while FAULT = 0, and FCODE is
the code of a cause while FAULT = 1. -/
abbrev statusLegal (t : Status) : Prop :=
  (t.fault = false → t.fcode = 0 ∧ t.fopc = 0) ∧
  (t.fault = true → 0x01 ≤ t.fcode.toNat ∧ t.fcode.toNat ≤ 0x0D)

/-- The state is one the spec describes: legal STATUS, a sink within its counter (20_memory.md R41), a descriptor store
in canonical form, parameters of the right shape. -/
abbrev Inv (s : State) : Prop :=
  statusLegal s.status ∧ s.sink.length ≤ 2 ^ 32 - 1 ∧ s.store.wf ∧ paramsWf s.params

/-! ### How a command ends -/

/-- The state after fault entry for the code `code` of the command `i` (60_exceptions.md R232). -/
def faultState (s : State) (i : Instr) (code : BitVec 8) : State :=
  { s with status := { fault := true, fcode := code, fopc := opcField (encode i) } }

/-- The command `i` raises the fault of code `code`: fault entry and nothing else (60_exceptions.md R232, R233). -/
def Raises (i : Instr) (s : State) (code : BitVec 8) : Prop := exec i s = .next (faultState s i code)

/-- The command `i` outputs `out`: appended whole, and nothing else changed, where it fits the sink; `SINK_OVERFLOW`
where it does not (30_encoding.md R66 steps 6 and 7). -/
def Outputs (i : Instr) (s : State) (out : Bits) : Prop :=
  (s.sink.length + out.length ≤ 2 ^ 32 - 1 → exec i s = .next { s with sink := s.sink ++ out }) ∧
  (2 ^ 32 - 1 < s.sink.length + out.length → Raises i s 0x0D)

/-- A command may run and OPA has been written (10_state.md R23, R25). -/
abbrev Ready (s : State) : Prop := s.status.fault = false ∧ s.opa.valid = true

/-- The command `i` raises `UNWRITTEN_OPERAND` while OPA is unwritten (10_state.md R23, 30_encoding.md R66 step 3). -/
def NeedsOpa (i : Instr) : Prop := ∀ s : State, s.status.fault = false → s.opa.valid = false → Raises i s 0x02

/-! ### The opcode table as data -/

/-- The `match` and `mask` of a command's row (30_encoding.md R63). -/
def row : Instr → Word × Word
  | .fixed _ => (0x00000001, 0xFFFFC0FF)
  | .flag    => (0x00000002, 0xFFFFFFFF)
  | .uvlc    => (0x00000003, 0xFFFFFFFF)
  | .svlc    => (0x00000004, 0xFFFFFFFF)
  | .tu      => (0x00000005, 0xFFFFFFFF)
  | .eglvl   => (0x00000006, 0xFFFFFFFF)
  | .egesc _ => (0x00000007, 0xFFFFC0FF)
  | .rps     => (0x00000010, 0xFFFFFFFF)
  | .epo     => (0x00000011, 0xFFFFFFFF)
  | .wp      => (0x00000012, 0xFFFFFFFF)
  | .sl      => (0x00000013, 0xFFFFFFFF)

/-- Bits 13:8 of a word that selects the row of `i` are its immediate (30_encoding.md R61). -/
def immAgrees (w : Word) : Instr → Prop
  | .fixed n => n = w.toNat / 256 % 64
  | .egesc n => n = w.toNat / 256 % 64
  | .flag    => True
  | .uvlc    => True
  | .svlc    => True
  | .tu      => True
  | .eglvl   => True
  | .rps     => True
  | .epo     => True
  | .wp      => True
  | .sl      => True

/-- The opcodes of 30_encoding.md R63. -/
def assignedOpcodes : List Nat := [0x01, 0x02, 0x03, 0x04, 0x05, 0x06, 0x07, 0x10, 0x11, 0x12, 0x13]

/-- The fault codes the summary of 60_exceptions.md R247 marks for a command that is being executed (all but
`ILLEGAL_COMMAND`, which is raised before a command is selected). -/
def faultTable : Instr → List Nat
  | .fixed _ => [0x02, 0x04, 0x0D]
  | .flag    => [0x02, 0x0D]
  | .uvlc    => [0x02, 0x05, 0x0D]
  | .svlc    => [0x02, 0x06, 0x0D]
  | .tu      => [0x02, 0x07, 0x0D]
  | .eglvl   => [0x02, 0x0D]
  | .egesc _ => [0x02, 0x08, 0x0D]
  | .rps     => [0x02, 0x03, 0x05, 0x09, 0x0D]
  | .epo     => [0x02, 0x03, 0x0A, 0x0B, 0x0D]
  | .wp      => [0x02, 0x03, 0x06, 0x0C, 0x0D]
  | .sl      => [0x02, 0x03, 0x06, 0x0D]

/-! ### Output codes in closed form -/

/-- The `n` low-order bits of `v`, most-significant first, by index (00_scope.md R8). -/
def fixForm (n v : Nat) : Bits := List.ofFn fun k : Fin n => v.testBit (n - 1 - k)

/-- `UE(v)` in closed form: `floor(log2(v + 1))` zeros and the binary numeral of `v + 1` (30_encoding.md R75). -/
def ueForm (v : Nat) : Bits := List.replicate (Nat.log 2 (v + 1)) false ++ (Nat.bits (v + 1)).reverse

/-- `UE` of the zigzag image (30_encoding.md R75, 40_vlc.md R102). -/
def seForm (v : Int) : Bits := ueForm (if 0 < v then 2 * v.natAbs - 1 else 2 * v.natAbs)

/-- `run c r` is what the loop of `EGK` emits from count `c` and remaining symbol `r` (40_vlc.md R105). -/
def IsEgkLoop (run : Nat → Nat → Bits) : Prop :=
  ∀ c r, run c r = if 2 ^ c ≤ r then true :: run (c + 1) (r - 2 ^ c) else false :: fixForm c r

/-- `EGK` with `p` prefix ones (30_encoding.md R75). -/
def egkForm (s k p : Nat) : Bits :=
  List.replicate p true ++ false :: fixForm (k + p) (s - (2 ^ (k + p) - 2 ^ k))

/-- `p` is the number of prefix ones of `EGK(s, k)`: the least with `s < 2^(k+p+1) - 2^k` (30_encoding.md R75). -/
def IsPrefixCount (s k p : Nat) : Prop :=
  s < 2 ^ (k + p + 1) - 2 ^ k ∧ ∀ q, s < 2 ^ (k + q + 1) - 2 ^ k → p ≤ q

/-! ### Codec outputs as lists of fields -/

/-- One field of a codec command's output (00_scope.md R11). -/
inductive Field where
  | bit (b : Bool)
  | ue (v : Int)
  | se (v : Int)
  deriving DecidableEq, Repr

/-- The operand is in the code's range (40_vlc.md R101, R103). -/
def Field.inRange : Field → Bool
  | .bit _ => true
  | .ue v => decide (0 ≤ v ∧ v ≤ 2 ^ 32 - 2)
  | .se v => decide (-(2 ^ 31 - 1) ≤ v ∧ v ≤ 2 ^ 31 - 1)

/-- The bits of a field. -/
def Field.bits : Field → Bits
  | .bit b => [b]
  | .ue v => ueForm v.toNat
  | .se v => seForm v

/-- The fault of a field whose operand is out of range (40_vlc.md R101, R103). A bit has none. -/
def Field.faultCode : Field → BitVec 8
  | .bit _ => 0x00
  | .ue _ => 0x05
  | .se _ => 0x06

/-- The bits of a list of fields, in order. -/
def fieldBits (fs : List Field) : Bits := fs.flatMap Field.bits

/-- The command `i` codes the fields `fs`: their bits, where every operand is in range; the fault of the first one out of
range otherwise (00_scope.md R11, 30_encoding.md R66 step 5). -/
def Codes (i : Instr) (s : State) (fs : List Field) : Prop :=
  (fs.all Field.inRange = true → Outputs i s (fieldBits fs)) ∧
  (∀ pre f post, fs = pre ++ f :: post → pre.all Field.inRange = true → f.inRange = false → Raises i s f.faultCode)

/-- `deltaPoc[i]` and `used[i]` (30_encoding.md R70). -/
def poc (r : RpsRecord) (i : Nat) : Int := (r.deltaPoc.getD i 0).toInt

/-- The fields of the inter-RPS form (41_rps.md R144, R145). -/
def rpsInterFields (r : RpsRecord) : List Field :=
  [.ue (r.deltaRIdx.toNat - 1), .bit (decide (r.deltaRps.toInt < 0)), .ue (|r.deltaRps.toInt| - 1)] ++
  r.refIdc.flatMap fun x =>
    match x with
    | .used => [.bit true]
    | .delta => [.bit false, .bit true]
    | .dropped => [.bit false, .bit false]

/-- The fields of the explicit form, each gap by its entry's index (41_rps.md R146-R148). -/
def rpsExplicitFields (r : RpsRecord) : List Field :=
  let neg := r.numNeg.toNat
  [.ue neg, .ue r.numPos.toNat] ++
  ((List.range neg).flatMap fun j =>
    [.ue ((if j = 0 then 0 else poc r (j - 1)) - poc r j - 1), .bit (r.used.getD j false)]) ++
  ((List.range r.numPos.toNat).flatMap fun k =>
    [.ue (poc r (neg + k) - (if k = 0 then 0 else poc r (neg + k - 1)) - 1), .bit (r.used.getD (neg + k) false)])

/-- `lsbDelta` of entry `i` (41_rps.md R150, R151): `prevRawDelta` is 0 before the last entry, else the delta-POC of
entry `i + 1`. -/
def ltLsb (r : RpsRecord) (i : Nat) : Int :=
  ((r.maxPocLsb.toNat : Int) - poc r i + (if i + 1 = r.deltaPoc.length then 0 else poc r (i + 1))).tmod r.maxPocLsb.toNat

/-- `currentCumulativeLsb` of entry `i`: the sum of the LSB deltas of the entries from the last to it
(41_rps.md R150, R152). -/
def ltCum (r : RpsRecord) (i : Nat) : Int :=
  ((List.range (r.deltaPoc.length - i)).map fun d => ltLsb r (i + d)).sum

/-- The MSB cycle of entry `i` (41_rps.md R153-R155). -/
def ltCycleOf (r : RpsRecord) (i : Nat) : Int :=
  let L : Int := r.maxPocLsb.toNat
  if i + 1 = r.deltaPoc.length then (-poc r i).tdiv L - 1
  else if ltCum r i = ltCum r (i + 1) then (poc r (i + 1) - poc r i).tdiv L - 1
  else if (ltCum r (i + 1) = L - 1 ∧ ltCum r i = L + 1) ∨ (ltCum r (i + 1) = L - 2 ∧ ltCum r i = L) then
    (-poc r i).tdiv L - 1 - 1
  else (-poc r i).tdiv L - 1

/-- The fields of the long-term part (41_rps.md R149-R157). -/
def rpsLongTermFields (r : RpsRecord) : List Field :=
  .ue r.numLT.toNat ::
  (List.range r.numLT.toNat).flatMap fun k =>
    let i := r.deltaPoc.length - 1 - k
    [.ue (ltLsb r i)] ++ (if 0 ≤ ltCycleOf r i then [.bit true, .ue (ltCycleOf r i)] else [.bit false]) ++
    [.bit (r.used.getD i false)]

/-- The preconditions of 41_rps.md R142. -/
abbrev rpsPrecondHolds (r : RpsRecord) : Prop :=
  r.numNeg.toNat + r.numPos.toNat + r.numLT.toNat = r.deltaPoc.length ∧
  (r.interRps = true → 1 ≤ r.deltaRIdx.toNat ∧ r.deltaRIdx.toNat ≤ r.currIdx.toNat) ∧
  (r.ltEnabled = true → 0 < r.numLT.toNat → 1 ≤ r.maxPocLsb.toNat)

/-- The offsets before correction, by index (42_entry_point.md R172, R173). -/
def epoOffsetsForm (r : EpoRecord) : List Nat :=
  match r.mode with
  | .none => []
  | .tiles => (List.range r.tileAddr.length).map fun i =>
      (r.tileAddr.getD i 0).toNat - (if i = 0 then 0 else (r.tileAddr.getD (i - 1) 0).toNat)
  | .wavefront => ((r.substreamBits.map UInt32.toNat).rdropWhile (fun n => decide (n = 0))).map fun n => n / 8

/-- Some tile offset is negative (42_entry_point.md R172). -/
def tilesDecrease (r : EpoRecord) : Prop :=
  ∃ i, 0 < i ∧ i < r.tileAddr.length ∧ (r.tileAddr.getD i 0).toNat < (r.tileAddr.getD (i - 1) 0).toNat

/-- The entries coded, for the combinations that code a table (43_weighted_pred.md R190). -/
def wpCoded (r : WpRecord) : List WpEntry :=
  match r.sliceType, r.mode with
  | .p, .explicit => r.l0
  | .b, .explicit => r.l0 ++ r.l1
  | .b, .combined => r.lc
  | .i, .none | .i, .explicit | .i, .combined | .p, .none | .b, .none | .p, .combined => []

/-- The fields of one chroma component (43_weighted_pred.md R195, R196). -/
def wpComponentFields (p : Params) (r : WpRecord) (wgt off : Int) : List Field :=
  let mid := p.wpMid.getD (r.bitDepthC.toNat - 1) 0
  [.se (wgt - 2 ^ r.chromaLog2Denom.toNat), .se (off + (mid * wgt) / 2 ^ r.chromaLog2Denom.toNat - mid)]

/-- The fields of one entry (43_weighted_pred.md R193, R195). -/
def wpEntryFields (p : Params) (r : WpRecord) (e : WpEntry) : List Field :=
  [.bit e.lumaPresent] ++
  (if e.lumaPresent then [.se (e.lumaWeight.toInt - 2 ^ r.lumaLog2Denom.toNat), .se e.lumaOffset.toInt] else []) ++
  [.bit e.chromaPresent] ++
  (if e.chromaPresent then wpComponentFields p r e.cbWeight.toInt e.cbOffset.toInt ++
    wpComponentFields p r e.crWeight.toInt e.crOffset.toInt else [])

/-- The fields of a table: the denominators once, before the first entry (43_weighted_pred.md R192). -/
def wpFields (p : Params) (r : WpRecord) : List Field :=
  [.ue r.lumaLog2Denom.toNat, .se (r.chromaLog2Denom.toNat - r.lumaLog2Denom.toNat)] ++
  (wpCoded r).flatMap (wpEntryFields p r)

/-- `coef[c][l]` and `dc[c][l]` (30_encoding.md R73). -/
def coefOf (r : SlRecord) (c l : Nat) : List Int32 := (r.coef.getD c []).getD l []

/-- `dc[c][l]` (30_encoding.md R73). -/
def dcOf (r : SlRecord) (c l : Nat) : Int32 := (r.dc.getD c []).getD l 0

/-- The earlier lists of a class that list `l` matches (44_scaling_list.md R211). -/
def slEarlierMatches (r : SlRecord) (cls : SlClass) (c l : Nat) : List Nat :=
  (List.range l).filter fun j =>
    decide (coefOf r c j = coefOf r c l ∧ (cls.hasDc = true → dcOf r c j = dcOf r c l))

/-- A difference wrapped once into [-128, 127] (44_scaling_list.md R216). -/
def wrapForm (d : Int) : Int := if 127 < d then d - 256 else if d < -128 then d + 256 else d

/-- The fields of a coefficient walk: each value against the one before it, the first against `pred`
(44_scaling_list.md R216). -/
def slWalkFields (pred : Int) (values : List Int) : List Field :=
  (values.zip (pred :: values)).map fun x => .se (wrapForm (x.1 - x.2))

/-- The coefficients in scan order (44_scaling_list.md R212, R216). -/
def scannedForm (r : SlRecord) (cls : SlClass) (c l : Nat) : List Int :=
  (List.range cls.numCoef).map fun i => ((coefOf r c l).getD (cls.scan.getD i 0) 0).toInt

/-- The fields of one list (44_scaling_list.md R211, R213-R216). -/
def slListFields (p : Params) (r : SlRecord) (cls : SlClass) (c l : Nat) : List Field :=
  match (slEarlierMatches r cls c l).getLast? with
  | some j => [.bit false, .ue (l - j - 1)]
  | none =>
    if cls.hasDc then
      [.bit true, .se ((dcOf r c l).toInt - 8)] ++
      (if dcOf r c l = 0 then []
       else slWalkFields (if p.slDcSeedsPredictor then (dcOf r c l).toInt else p.slStart) (scannedForm r cls c l))
    else .bit true :: slWalkFields p.slStart (scannedForm r cls c l)

/-- The fields of every list of every class, in increasing order (44_scaling_list.md R210). -/
def slFields (p : Params) (r : SlRecord) : List Field :=
  (List.range p.slClasses.length).flatMap fun c =>
    let cls := p.slClasses.getD c { numLists := 0, numCoef := 0, hasDc := false, scan := [] }
    (List.range cls.numLists).flatMap fun l => slListFields p r cls c l

/-- The shape of an `SlRecord` (30_encoding.md R74). -/
abbrev slShape (p : Params) (r : SlRecord) : Prop :=
  r.coef.length = p.slClasses.length ∧
  ∀ c, (h : c < p.slClasses.length) →
    (r.coef.getD c []).length = p.slClasses[c].numLists ∧
    (∀ l ∈ r.coef.getD c [], l.length = p.slClasses[c].numCoef) ∧
    (p.slClasses[c].hasDc = true → c < r.dc.length ∧ (r.dc.getD c []).length = p.slClasses[c].numLists)

/-- The record a handle names is missing, of another kind than the command's, or ill-shaped (20_memory.md R44,
30_encoding.md R74). The primitive commands read no record. -/
def badDescriptorFor (p : Params) (i : Instr) (rec : Option Record) : Prop :=
  match i with
  | .rps => ∀ r, rec = some (.rps r) → r.used.length ≠ r.deltaPoc.length
  | .epo => ∀ r, rec ≠ some (.epo r)
  | .wp => ∀ r, rec ≠ some (.wp r)
  | .sl => ∀ r, rec = some (.sl r) → ¬slShape p r
  | .fixed _ | .flag | .uvlc | .svlc | .tu | .eglvl | .egesc _ => False

/-! ### Two states that differ only in what an unwritten operand register holds -/

/-- Equal registers, but for the value of an unwritten one (10_state.md R23). -/
def sameOperand (a b : Operand) : Prop := a.valid = b.valid ∧ (a.valid = true → a.value = b.value)

/-- Equal states, but for the values of unwritten operand registers. -/
def sameButUnwritten (s t : State) : Prop :=
  sameOperand s.opa t.opa ∧ sameOperand s.opb t.opb ∧ t = { s with opa := t.opa, opb := t.opb }

/-! ### Decoders of the output codes (40_vlc.md R107) -/

/-- The number a bit sequence writes, most-significant bit first. -/
def natOfBits (b : Bits) : Nat := b.foldl (fun acc x => 2 * acc + x.toNat) 0

/-- The decoder of 40_vlc.md R107: count `m` leading zeros, read `m + 1` bits as `codeword`, answer `codeword - 1` and
the bits after the code. -/
def decodeUe (b : Bits) : Nat × Bits :=
  let m := (b.takeWhile (fun x => !x)).length
  let rest := b.drop m
  (natOfBits (rest.take (m + 1)) - 1, rest.drop (m + 1))

/-- The inverse of `zigzag` (40_vlc.md R102, R107). -/
def unzigzag (n : Nat) : Int := if n % 2 = 0 then -((n / 2 : Nat) : Int) else ((n + 1) / 2 : Nat)

/-! ### The default scan (44_scaling_list.md R212) -/

/-- The up-right diagonal scan of a `g x g` grid: the anti-diagonals `x + y = d` in turn, each from its largest `y` to its
largest `x`, the raster index of a cell being `y * g + x`. -/
def upRightDiagonal (g : Nat) : List Nat :=
  (List.range (2 * g - 1)).flatMap fun d =>
    ((List.range g).filter fun x => decide (x ≤ d ∧ d - x < g)).map fun x => (d - x) * g + x

end Sys2Proof.Safety
end

