-- ==== Sys2Proof/Certificates/Slice0/Obligations.lean ====
section
/-! DEFINITION. The statements about the machine, from the numbered rules of spec/. `Ready`, `Raises` and `Outputs` are
defined in Safety.lean; a statement about an implementation parameter holds for every value of it. -/

open Sys2Proof Sys2Proof.Machine Sys2Proof.Safety

/-! ### Encoding -/

/-- Words written out from the rows of 30_encoding.md R63 decode to the commands they stand for, and words it leaves
unassigned are refused by name. A sanity statement. -/
def Obligations.WrittenWordsDecode : Prop :=
  decode 0x00000301 = .ok (.fixed 3) ∧ decode 0x00003F01 = .ok (.fixed 63) ∧ decode 0x00000002 = .ok .flag ∧
  decode 0x00000003 = .ok .uvlc ∧ decode 0x00000004 = .ok .svlc ∧ decode 0x00000005 = .ok .tu ∧
  decode 0x00000006 = .ok .eglvl ∧ decode 0x00000107 = .ok (.egesc 1) ∧ decode 0x00000010 = .ok .rps ∧
  decode 0x00000011 = .ok .epo ∧ decode 0x00000012 = .ok .wp ∧ decode 0x00000013 = .ok .sl ∧
  decode 0x00000000 = .error .unassignedOpcode ∧ decode 0x00000014 = .error .unassignedOpcode ∧
  decode 0x00000103 = .error .reservedBits ∧ decode 0x00004001 = .error .reservedBits

/-- Every well-formed command, with every immediate its field admits, is what its own word decodes to. -/
def Obligations.DecodeOfEncode : Prop :=
  ∀ i : Instr, i.wellFormed = true → decode (encode i) = .ok i

/-- A word that decodes is the word of the command it decodes to, so no bit of a legal word is dropped, and that
command is well formed. -/
def Obligations.EncodeOfDecode : Prop :=
  ∀ (w : Word) (i : Instr), decode w = .ok i → encode i = w ∧ i.wellFormed = true

/-- 30_encoding.md R63: the word `w` selects exactly the row with `w & mask = match`, its immediate being bits 13:8
(R61), and at most one row. -/
def Obligations.WordSelectsItsRow : Prop :=
  (∀ (w : Word) (i : Instr), decode w = .ok i ↔ w &&& (row i).2 = (row i).1 ∧ immAgrees w i) ∧
  (∀ (w : Word) (i j : Instr), w &&& (row i).2 = (row i).1 → w &&& (row j).2 = (row j).1 → row i = row j)

/-! ### One step -/

/-- A host write to CMD of a word that decodes runs exactly that command, the write itself being taken off the pending
interactions (the queue is the model's own, log entry 1). -/
def Obligations.StepRunsTheDecodedCommand : Prop :=
  ∀ (s : State) (w : Word) (i : Instr) (rest : List HostOp),
    s.host = .write s.params.base 4 w :: rest → decode w = .ok i → step s = exec i { s with host := rest }

/-- 30_encoding.md R62, R65: a command word with an unassigned opcode or a reserved bit set raises `ILLEGAL_COMMAND`,
whatever the operands hold. -/
def Obligations.IllegalWordRaisesIllegalCommand : Prop :=
  ∀ (s : State) (w : Word) (rest : List HostOp),
    s.host = .write s.params.base 4 w :: rest → s.status.fault = false →
    (w.toNat % 256 ∉ assignedOpcodes ∨
      (w.toNat % 256 ≠ 0x01 ∧ w.toNat % 256 ≠ 0x07 ∧ w.toNat / 256 ≠ 0) ∨ w.toNat / 2 ^ 14 ≠ 0) →
    step s = .next { s with host := rest, status := { fault := true, fcode := 0x01, fopc := w.extractLsb' 0 8 } }

/-! ### The whole machine -/

/-- State.reset meets the invariant. -/
def Obligations.InvariantAtReset : Prop := Inv State.reset

/-- Every step keeps the invariant: STATUS legal, the sink within its counter, the descriptor store in canonical form,
the parameters well shaped. -/
def Obligations.StepKeepsInvariant : Prop :=
  ∀ s t : State, Inv s → step s = .next t → Inv t

/-- 70_reset_and_hazards.md R260, R261: reset clears the valid bits and STATUS in one step and has no other effect, the
operand values (unspecified) may be anything, and the sink and the descriptor store keep their contents; it is the only
way to clear STATUS.FAULT. State.reset itself has the values of 10_state.md R32. The counter of free values and the queue
are the model's own (log entries 1, 3). -/
def Obligations.ResetClearsValidBitsAndStatus : Prop :=
  (State.reset.opa.valid = false ∧ State.reset.opb.valid = false ∧ State.reset.status.word = 0x00000000 ∧
    State.reset.status.fault = false) ∧
  (∀ (s : State) (rest : List HostOp), s.host = .reset :: rest →
    ∃ t, step s = .next t ∧ t.opa.valid = false ∧ t.opb.valid = false ∧
      t.status = { fault := false, fcode := 0, fopc := 0 } ∧ t.status.word = 0x00000000 ∧
      t.sink = s.sink ∧ t.store = s.store ∧ t.params = s.params ∧ t.reads = s.reads ∧ t.host = rest) ∧
  ∀ s t : State, step s = .next t → s.status.fault = true → t.status.fault = false → ∃ rest, s.host = .reset :: rest

/-- 60_exceptions.md R232, R233 and 10_state.md R27: every command, on every state, answers a next state; it either
appends one bit sequence to the sink within its counter and changes nothing else, or makes fault entry with the code of
a cause of R231 and changes nothing else. This is the frame of all eleven commands: the operand registers, the store,
the parameters and the model's own fields are never written, and STATUS only by fault entry. The same of a host write of
any word `w` to CMD, legal or not, FOPC being `w[7:0]` (the write itself is taken off the model's queue, log entry 1). -/
def Obligations.CommandAppendsOrFaults : Prop :=
  (∀ (i : Instr) (s : State), s.status.fault = false →
    (∃ out, s.sink.length + out.length ≤ 2 ^ 32 - 1 ∧ exec i s = .next { s with sink := s.sink ++ out }) ∨
    (∃ c : Cause, Raises i s c.code)) ∧
  ∀ (s : State) (w : Word) (rest : List HostOp),
    s.host = .write s.params.base 4 w :: rest → s.status.fault = false →
    (∃ out, s.sink.length + out.length ≤ 2 ^ 32 - 1 ∧
      step s = .next { s with host := rest, sink := s.sink ++ out }) ∨
    (∃ c : Cause, step s =
      .next { s with host := rest, status := { fault := true, fcode := c.code, fopc := w.extractLsb' 0 8 } })

/-- 60_exceptions.md R235: while STATUS.FAULT = 1 a write to CMD, of any word, has no effect, and no command runs; writes
to OPA and OPB still take effect, and a STATUS read returns the recorded fault. -/
def Obligations.FaultedBlockIgnoresCommands : Prop :=
  ∀ s : State, s.status.fault = true →
    (∀ i, exec i s = .next s) ∧
    (∀ w rest, s.host = .write s.params.base 4 w :: rest → step s = .next { s with host := rest }) ∧
    (∀ v rest, s.host = .write (s.params.base + 4) 4 v :: rest →
      step s = .next { s with host := rest, opa := { valid := true, value := v } }) ∧
    (∀ v rest, s.host = .write (s.params.base + 8) 4 v :: rest →
      step s = .next { s with host := rest, opb := { valid := true, value := v } }) ∧
    (∀ rest, s.host = .read (s.params.base + 12) 4 :: rest →
      step s = .next { s with host := rest, reads := s.reads ++ [s.status.word] })

/-- 60_exceptions.md R236: nothing but reset changes STATUS while STATUS.FAULT = 1, so a fault is neither cleared nor
followed by another; and only a CMD write or reset changes STATUS at all (10_state.md R26). -/
def Obligations.OnlyResetClearsFault : Prop :=
  ∀ s t : State, step s = .next t →
    (s.status.fault = true → t.status ≠ s.status → ∃ rest, s.host = .reset :: rest) ∧
    (t.status ≠ s.status →
      (∃ rest, s.host = .reset :: rest) ∨ ∃ w rest, s.host = .write s.params.base 4 w :: rest)

/-- 70_reset_and_hazards.md R264: OPA and OPB keep their values and valid bits across every step but a host write of that
register or reset; no command consumes or clears an operand. -/
def Obligations.OperandsPersist : Prop :=
  ∀ s t : State, step s = .next t →
    (t.opa ≠ s.opa → (∃ rest, s.host = .reset :: rest) ∨ ∃ v rest, s.host = .write (s.params.base + 4) 4 v :: rest) ∧
    (t.opb ≠ s.opb → (∃ rest, s.host = .reset :: rest) ∨ ∃ v rest, s.host = .write (s.params.base + 8) 4 v :: rest) ∧
    (∀ w rest, s.host = .write s.params.base 4 w :: rest → t.opa = s.opa ∧ t.opb = s.opb)

/-- 60_exceptions.md R247: which faults each command can raise while it executes. The table holds for an entry-point
record of at most UVLC_MAX elements and scaling-list classes of fewer than 2^32 lists (beyond them `UE` raises
`UVLC_RANGE`, log entry 15). -/
def Obligations.CommandRaisesOnlyItsFaults : Prop :=
  ∀ (i : Instr) (s t : State), s.status.fault = false →
    (∀ h r, s.store.read h = some (.epo r) →
      r.tileAddr.length ≤ 2 ^ 32 - 2 ∧ r.substreamBits.length ≤ 2 ^ 32 - 2) →
    (∀ c ∈ s.params.slClasses, c.numLists < 2 ^ 32) →
    exec i s = .next t → t.status.fault = true →
    t.status.fcode.toNat ∈ faultTable i ∧ t.status.fopc = (row i).1.extractLsb' 0 8

/-- A step never rewrites what stands: the sink and the returned data only grow, the parameters never change, and the
descriptor store changes only by the host's own record change (20_memory.md R44, R51; 70_reset_and_hazards.md R261,
R268). -/
def Obligations.StepNeverRewritesHistory : Prop :=
  ∀ s t : State, step s = .next t →
    s.sink <+: t.sink ∧ s.reads <+: t.reads ∧ t.params = s.params ∧
    (t.store ≠ s.store → ∃ h r rest, s.host = .setRecord h r :: rest)

/-- 70_reset_and_hazards.md R273, 60_exceptions.md R235: from a faulted state, a run of any length over host interactions
that neither reset the block nor write the sink directly leaves the sink and STATUS as they were. -/
def Obligations.FaultedRunEmitsNothingMore : Prop :=
  ∀ (k : Nat) (s t : State), s.status.fault = true →
    (∀ op ∈ s.host, (∃ a z v, op = .write a z v) ∨ (∃ a z, op = .read a z) ∨ ∃ h r, op = .setRecord h r) →
    Host.Core.run Sys2Proof.core k s = .next t → t.sink = s.sink ∧ t.status = s.status

/-- 70_reset_and_hazards.md R269: no command but EPO reads `pos()`. Whatever a command answers on an empty sink, it
answers at every position: the same fault, or the same output, appended where it fits and `SINK_OVERFLOW` where it does
not. -/
def Obligations.OnlyEpoDependsOnThePosition : Prop :=
  ∀ (i : Instr) (s : State), i ≠ .epo → s.status.fault = false →
    (∀ out, exec i { s with sink := [] } = .next { s with sink := out } → Outputs i s out) ∧
    (∀ code, Raises i { s with sink := [] } code → Raises i s code)

/-- 10_state.md R23: what an unwritten operand register holds is not visible. Two states that differ only there make the
same step: the same stop, or next states that differ only there. It rests on no value of a free value (log entries 3,
4). -/
def Obligations.UnwrittenOperandValueIsInvisible : Prop :=
  ∀ s t : State, sameButUnwritten s t →
    match step s with
    | .next s' => ∃ t', step t = .next t' ∧ sameButUnwritten s' t'
    | .fault f => step t = .fault f
    | .refused r => step t = .refused r

/-! ### Operands and records -/

/-- 10_state.md R23: a command that reads OPA while OPA.valid = 0 raises `UNWRITTEN_OPERAND`; every command reads OPA
(30_encoding.md R64), and nothing else is looked at first (60_exceptions.md R234). -/
def Obligations.UnwrittenOpaRaises : Prop := ∀ i : Instr, NeedsOpa i

/-- 10_state.md R24, 30_encoding.md R64: no command, TU included, writes OPB; and no command but TU reads it: with any
other OPB it answers the same state but for OPB. -/
def Obligations.OnlyTuReadsOpb : Prop :=
  (∀ (i : Instr) (s t : State), exec i s = .next t → t.opb = s.opb) ∧
  ∀ (i : Instr) (s t : State) (o : Operand), i ≠ .tu → exec i s = .next t →
    exec i { s with opb := o } = .next { t with opb := o }

/-- 20_memory.md R44, 30_encoding.md R74: a codec command whose handle names no record, a record of another kind or an
ill-shaped record raises `BAD_DESCRIPTOR`. -/
def Obligations.BadDescriptorRaises : Prop :=
  ∀ (i : Instr) (s : State), Ready s →
    badDescriptorFor s.params i (s.store.read s.opa.value.toNat) → Raises i s 0x03

/-! ### The primitive commands -/

/-- 40_vlc.md R100 and the command R110: the code `FIX` is the n low-order bits, most-significant first, for n in 1..32,
and raises `FIXED_LENGTH` for n = 0 and n > 32; FIXED, word 0x01 with N in bits 13:8, appends `FIX(u32(OPA), N)`. -/
def Obligations.FixedAppendsLowBits : Prop :=
  (∀ v n : Nat, (1 ≤ n → n ≤ 32 → fix v n = .ok (fixForm n v)) ∧ (n = 0 ∨ 32 < n → fix v n = .error .fixedLength)) ∧
  (∀ n : Nat, n < 64 → decode (BitVec.ofNat 32 (0x01 + 256 * n)) = .ok (.fixed n)) ∧
  ∀ n : Nat, NeedsOpa (.fixed n) ∧ ∀ s : State, Ready s →
    (1 ≤ n → n ≤ 32 → Outputs (.fixed n) s (fixForm n s.opa.value.toNat)) ∧
    (n = 0 ∨ 32 < n → Raises (.fixed n) s 0x04)

/-- 40_vlc.md R111: FLAG, word 0x02, appends the one bit OPA[0] and ignores OPA[31:1]. -/
def Obligations.FlagAppendsBitZero : Prop :=
  decode 0x00000002 = .ok .flag ∧ NeedsOpa .flag ∧ ∀ s : State, Ready s → Outputs .flag s [s.opa.value.getLsbD 0]

/-- 40_vlc.md R101 and the command R112: the code `UE` in closed form on every integer; UVLC, word 0x03, appends
`UE(u32(OPA))`, and raises `UVLC_RANGE` for 0xFFFFFFFF. -/
def Obligations.UvlcAppendsExpGolomb : Prop :=
  (∀ v : Int, (0 ≤ v ∧ v ≤ 2 ^ 32 - 2 → ue v = .ok (ueForm v.toNat)) ∧
    (v < 0 ∨ 2 ^ 32 - 2 < v → ue v = .error .uvlcRange)) ∧
  decode 0x00000003 = .ok .uvlc ∧ NeedsOpa .uvlc ∧
  (∀ s : State, Ready s →
    (s.opa.value ≠ 0xFFFFFFFF → Outputs .uvlc s (ueForm s.opa.value.toNat)) ∧
    (s.opa.value = 0xFFFFFFFF → Raises .uvlc s 0x05))

/-- 40_vlc.md R102, R103 and the command R113: the code `SE` is `UE` of the zigzag image in its range; SVLC, word 0x04,
appends `SE(s32(OPA))`, and raises `SVLC_RANGE` for 0x80000000. -/
def Obligations.SvlcAppendsSignedExpGolomb : Prop :=
  (∀ v : Int, (v ≤ 0 → zigzag v = -2 * v) ∧ (0 < v → zigzag v = 2 * v - 1)) ∧
  (∀ v : Int, (-(2 ^ 31 - 1) ≤ v ∧ v ≤ 2 ^ 31 - 1 → se v = .ok (ueForm (zigzag v).toNat)) ∧
    (v < -(2 ^ 31 - 1) ∨ 2 ^ 31 - 1 < v → se v = .error .svlcRange)) ∧
  decode 0x00000004 = .ok .svlc ∧ NeedsOpa .svlc ∧
  (∀ s : State, Ready s →
    (s.opa.value ≠ 0x80000000 → Outputs .svlc s (seForm s.opa.value.toInt)) ∧
    (s.opa.value = 0x80000000 → Raises .svlc s 0x06))

/-- 40_vlc.md R104 and the command R114: the code `TU` is empty for M = 0 whatever the symbol, `s` ones and a terminating
0 exactly when s < M, and raises `TU_RANGE` for s > M > 0; TU, word 0x05, codes OPA against OPB and needs both written,
even for M = 0. -/
def Obligations.TuAppendsTruncatedUnary : Prop :=
  (∀ s M : Nat, (M = 0 → truncatedUnary s M = .ok []) ∧ (0 < M → M < s → truncatedUnary s M = .error .tuRange) ∧
    (0 < M → s ≤ M → truncatedUnary s M = .ok (List.replicate s true ++ if s < M then [false] else []))) ∧
  decode 0x00000005 = .ok .tu ∧
  (∀ s : State, s.status.fault = false → s.opa.valid = false ∨ s.opb.valid = false → Raises .tu s 0x02) ∧
  ∀ s : State, Ready s → s.opb.valid = true →
    let symbol := s.opa.value.toNat
    let maxSymbol := s.opb.value.toNat
    (maxSymbol = 0 → Outputs .tu s []) ∧
    (0 < maxSymbol → symbol < maxSymbol → Outputs .tu s (List.replicate symbol true ++ [false])) ∧
    (0 < maxSymbol → symbol = maxSymbol → Outputs .tu s (List.replicate symbol true)) ∧
    (0 < maxSymbol → maxSymbol < symbol → Raises .tu s 0x07)

/-- 40_vlc.md R106 and the command R115: the code `EGL` is `s` ones and a 0 below 13, and from 13 on thirteen ones and
`EGK(s - 13, 0)`, `EGK` by the loop of R105; it has no fault of its own on a 32-bit symbol; EGLVL, word 0x06, appends
`EGL(u32(OPA))`. -/
def Obligations.EglvlAppendsLevelCode : Prop :=
  decode 0x00000006 = .ok .eglvl ∧ NeedsOpa .eglvl ∧
  ∃ run, IsEgkLoop run ∧
    (∀ s : Nat, (s < 13 → egl s = .ok (List.replicate s true ++ [false])) ∧
      (13 ≤ s → s < 2 ^ 32 → egl s = .ok (List.replicate 13 true ++ run 0 (s - 13)))) ∧
    ∀ s : State, Ready s →
      let symbol := s.opa.value.toNat
      (symbol < 13 → Outputs .eglvl s (List.replicate symbol true ++ [false])) ∧
      (13 ≤ symbol → Outputs .eglvl s (List.replicate 13 true ++ run 0 (symbol - 13)))

/-- 40_vlc.md R105 and the command R116: the code `EGK` is what its loop emits from count k, and raises `EGESC_RANGE` for
an order above 31 or a symbol of 2^32 - 2^k or more; EGESC, word 0x07 with N in bits 13:8, appends `EGK(u32(OPA), N)`. -/
def Obligations.EgescAppendsEscapedCode : Prop :=
  (∀ k : Nat, k < 64 → decode (BitVec.ofNat 32 (0x07 + 256 * k)) = .ok (.egesc k)) ∧
  (∀ k : Nat, NeedsOpa (.egesc k)) ∧
  ∃ run, IsEgkLoop run ∧
    (∀ k s : Nat, (k ≤ 31 → s < 2 ^ 32 - 2 ^ k → egk s k = .ok (run k s)) ∧
      (31 < k ∨ 2 ^ 32 - 2 ^ k ≤ s → egk s k = .error .egescRange)) ∧
    ∀ (k : Nat) (s : State), Ready s →
      let symbol := s.opa.value.toNat
      (k ≤ 31 → symbol < 2 ^ 32 - 2 ^ k → Outputs (.egesc k) s (run k symbol)) ∧
      (31 < k ∨ 2 ^ 32 - 2 ^ k ≤ symbol → Raises (.egesc k) s 0x08)

/-- 30_encoding.md R75 (the spec marks it derived): the loop of `EGK` in closed form: `p` ones, a 0 and the k + p low bits
of what remains, `p` being the least with s < 2^(k+p+1) - 2^k; the length is 2p + k + 1. -/
def Obligations.EscapedCodeClosedForm : Prop :=
  ∀ s k : Nat, k ≤ 31 → s < 2 ^ 32 - 2 ^ k →
    ∃ p, IsPrefixCount s k p ∧ egk s k = .ok (egkForm s k p) ∧ (egkForm s k p).length = 2 * p + k + 1

/-- 40_vlc.md R107: `UE` is self-delimiting and round-trips: the decoder that counts m zeros and reads m + 1 bits
recovers every codable value and leaves the bits after the code; and `SE` round-trips through the inverse of zigzag. -/
def Obligations.ExpGolombRoundTrips : Prop :=
  (∀ (v : Int) (code rest : Bits), ue v = .ok code → decodeUe (code ++ rest) = (v.toNat, rest)) ∧
  (∀ (v : Int) (code rest : Bits), se v = .ok code →
    unzigzag (decodeUe (code ++ rest)).1 = v ∧ (decodeUe (code ++ rest)).2 = rest)

/-- 40_vlc.md R107: for a fixed order, `EGK` is prefix-free: no code of one symbol begins the code of another; and for a
known maxSymbol > 0 the truncated unary code determines its symbol in the same way. -/
def Obligations.EscapedAndUnaryCodesArePrefixFree : Prop :=
  (∀ (k s t : Nat) (a b : Bits), egk s k = .ok a → egk t k = .ok b → a <+: b → s = t) ∧
  (∀ (M s t : Nat) (a b : Bits), 0 < M → truncatedUnary s M = .ok a → truncatedUnary t M = .ok b → a <+: b → s = t)

/-! ### RPS -/

/-- 41_rps.md R142: a broken count invariant, a reference index out of range or a zero POC-LSB modulus with long-term
entries raises `RPS_PRECOND`, before any UVLC range fault (60_exceptions.md R234). -/
def Obligations.RpsPreconditionRaises : Prop :=
  ∀ (s : State) (r : RpsRecord), Ready s → s.store.read s.opa.value.toNat = some (.rps r) →
    r.used.length = r.deltaPoc.length → ¬rpsPrecondHolds r → Raises .rps s 0x09

/-- 41_rps.md R146-R148: an explicit RPS without long-term coding is the form flag 0, the two counts and, for each entry
of the negative and then the positive group, its gap to the entry before and its used flag, each gap by its index; the
first gap or count out of range raises `UVLC_RANGE`. -/
def Obligations.RpsExplicitForm : Prop :=
  ∀ (s : State) (r : RpsRecord), Ready s → s.store.read s.opa.value.toNat = some (.rps r) →
    r.used.length = r.deltaPoc.length → rpsPrecondHolds r → r.interRps = false → r.ltEnabled = false →
    Codes .rps s (.bit false :: rpsExplicitFields r)

/-- 41_rps.md R144, R145: an inter-predicted RPS without long-term coding is the form flag 1, the delta index minus one,
the sign, the magnitude minus one and the indicators in order; `deltaRps = 0` raises `UVLC_RANGE`. -/
def Obligations.RpsInterForm : Prop :=
  ∀ (s : State) (r : RpsRecord), Ready s → s.store.read s.opa.value.toNat = some (.rps r) →
    r.used.length = r.deltaPoc.length → rpsPrecondHolds r → r.interRps = true → r.ltEnabled = false →
    (r.deltaRps ≠ 0 → Outputs .rps s (true :: fieldBits (rpsInterFields r))) ∧
    (r.deltaRps = 0 → Raises .rps s 0x05)

/-- 41_rps.md R151-R157: where long-term entries are enabled, after either form come their count and, from the last
entry backward, each entry's LSB delta, MSB cycle and used flag, with the running state written as sums over the entries
already coded and the -1 correction exactly in the two cases of R154; an operand out of range raises `UVLC_RANGE`. -/
def Obligations.RpsLongTermPart : Prop :=
  ∀ (s : State) (r : RpsRecord), Ready s → s.store.read s.opa.value.toNat = some (.rps r) →
    r.used.length = r.deltaPoc.length → rpsPrecondHolds r → r.ltEnabled = true →
    Codes .rps s (.bit r.interRps :: (if r.interRps then rpsInterFields r else rpsExplicitFields r) ++
      rpsLongTermFields r)

/-! ### EPO -/

/-- 42_entry_point.md R171: with mode NONE the command emits no bits and raises no fault. -/
def Obligations.EpoNoneEmitsNothing : Prop :=
  ∀ (s : State) (r : EpoRecord), Ready s → s.store.read s.opa.value.toNat = some (.epo r) → r.mode = .none →
    s.sink.length ≤ 2 ^ 32 - 1 → exec .epo s = .next s

/-- 42_entry_point.md R172-R177: decreasing tile addresses raise `EPO_PRECOND`, before any capacity fault. Otherwise, with
the offsets of the mode, `M` the adjusted maximum and `w` its width: a width above 32 raises `EPO_CAPACITY`; no entry
gives the count alone; a zero width with entries or a corrected first offset of 2^w or more raises `EPO_CAPACITY`; else
the count, the length and the offsets in w bits, the first corrected by the bits ahead of it. For every value of
NAL_HDR_BITS and EPO_SLACK_BYTES; a record of more than UVLC_MAX entries is EpoCountBeyondUvlcRaises. -/
def Obligations.EpoTableForm : Prop :=
  ∀ (s : State) (r : EpoRecord), Ready s → s.store.read s.opa.value.toNat = some (.epo r) → r.mode ≠ .none →
    (r.mode = .tiles ∧ tilesDecrease r → Raises .epo s 0x0B) ∧
    (¬(r.mode = .tiles ∧ tilesDecrease r) → (epoOffsetsForm r).length ≤ 2 ^ 32 - 2 →
      let off := epoOffsetsForm r
      let cnt := off.length
      let B0 := s.sink.length
      let M := off.foldr max 0 + (B0 + s.params.nalHdrBits) / 8 + s.params.epoSlackBytes
      ∀ w, M < 2 ^ w → (∀ w', M < 2 ^ w' → w ≤ w') →
        (32 < w → Raises .epo s 0x0A) ∧
        (w ≤ 32 → cnt = 0 → Outputs .epo s (ueForm 0)) ∧
        (w = 0 → 0 < cnt → Raises .epo s 0x0A) ∧
        (0 < w → w ≤ 32 → ∀ first rest, off = first :: rest →
          let head := ueForm cnt ++ ueForm (w - 1)
          let first' := first + (B0 + head.length + s.params.nalHdrBits + cnt * w) / 8
          (2 ^ w ≤ first' → Raises .epo s 0x0A) ∧
          (first' < 2 ^ w → Outputs .epo s (head ++ (first' :: rest).flatMap (fixForm w)))))

/-- The model's choice of log entry 15, by 00_scope.md R11 (a `UE` operand out of range raises `UVLC_RANGE`) against the
summary 60_exceptions.md R247, which leaves it out: a table of more than UVLC_MAX entries whose width fits raises
`UVLC_RANGE`. -/
def Obligations.EpoCountBeyondUvlcRaises : Prop :=
  ∀ (s : State) (r : EpoRecord), Ready s → s.store.read s.opa.value.toNat = some (.epo r) → r.mode ≠ .none →
    ¬(r.mode = .tiles ∧ tilesDecrease r) → 2 ^ 32 - 2 < (epoOffsetsForm r).length →
    (epoOffsetsForm r).foldr max 0 + (s.sink.length + s.params.nalHdrBits) / 8 + s.params.epoSlackBytes < 2 ^ 32 →
    Raises .epo s 0x05

/-- 42_entry_point.md R173: trailing zero-size substreams change nothing: a wavefront record with them and one without
them take the machine to the same sink and the same STATUS. -/
def Obligations.EpoTrailingZerosChangeNothing : Prop :=
  ∀ (s s' t t' : State) (r : EpoRecord) (z : Nat),
    s.store.read s.opa.value.toNat = some (.epo r) → r.mode = .wavefront →
    t = { s with store := t.store } →
    t.store.read s.opa.value.toNat = some (.epo { r with substreamBits := r.substreamBits ++ List.replicate z 0 }) →
    exec .epo s = .next s' → exec .epo t = .next t' → t'.sink = s'.sink ∧ t'.status = s'.status

/-! ### WP -/

/-- 43_weighted_pred.md R191: a chroma bit depth outside [1, 16] with a table to code raises `WP_PRECOND`, before any SVLC
range fault (60_exceptions.md R234). -/
def Obligations.WpPreconditionRaises : Prop :=
  ∀ (s : State) (r : WpRecord), Ready s → s.store.read s.opa.value.toNat = some (.wp r) →
    wpCoded r ≠ [] → ¬(1 ≤ r.bitDepthC.toNat ∧ r.bitDepthC.toNat ≤ 16) → Raises .wp s 0x0C

/-- 43_weighted_pred.md R190, R192, R193, R195, R196: combined mode in a P slice raises `WP_PRECOND`; an I slice, mode
NONE and an empty sequence emit nothing, not even the denominators, whatever the bit depth holds; a non-empty sequence is
the denominators once, then each entry's luma and chroma parts, and its first SVLC operand out of range raises
`SVLC_RANGE`. For every WP_MID that has a value for each depth (`paramsWf`, which the invariant keeps; what the model reads
in a table without one is its own choice, log entry 19, and is shut out). -/
def Obligations.WpTableForm : Prop :=
  ∀ (s : State) (r : WpRecord), Ready s → s.store.read s.opa.value.toNat = some (.wp r) →
    (r.sliceType = .p ∧ r.mode = .combined → Raises .wp s 0x0C) ∧
    (¬(r.sliceType = .p ∧ r.mode = .combined) → wpCoded r = [] → Outputs .wp s []) ∧
    (paramsWf s.params → wpCoded r ≠ [] → 1 ≤ r.bitDepthC.toNat → r.bitDepthC.toNat ≤ 16 →
      Codes .wp s (wpFields s.params r))

/-! ### SL -/

/-- 44_scaling_list.md R210, R211, R213-R216: the output is the code of every list of every class in increasing order:
copy mode from the most recent match, or DPCM mode with the DC field, the sentinel, the predictor's start and the walk
wrapped once; the first operand out of range raises its fault, `SVLC_RANGE` for a DC field or a difference, `UVLC_RANGE`
for a copy distance, which only a class of more than 2^32 - 1 lists can have (00_scope.md R11 against the summary
60_exceptions.md R247; log entry 15). For every geometry, scan, start and seeding. -/
def Obligations.SlListsForm : Prop :=
  ∀ (s : State) (r : SlRecord), Ready s → paramsWf s.params → s.store.read s.opa.value.toNat = some (.sl r) →
    slShape s.params r → Codes .sl s (slFields s.params r)

/-- 44_scaling_list.md R212 and the defaults of 00_scope.md R6 (the spec marks them as supplied from general knowledge):
four classes of 6, 6, 6 and 2 lists of 16, 64, 64 and 64 coefficients, a DC term in the two largest; the default scans
are the up-right diagonals of a 4x4 and an 8x8 grid, each listing every raster index of its class once. -/
def Obligations.DefaultScalingListGeometry : Prop :=
  defaultParams.slClasses.map SlClass.numLists = [6, 6, 6, 2] ∧
  defaultParams.slClasses.map SlClass.numCoef = [16, 64, 64, 64] ∧
  defaultParams.slClasses.map SlClass.hasDc = [false, false, true, true] ∧
  defaultParams.slClasses.map SlClass.scan =
    [upRightDiagonal 4, upRightDiagonal 8, upRightDiagonal 8, upRightDiagonal 8] ∧
  ∀ c ∈ defaultParams.slClasses, c.scan.Perm (List.range c.numCoef)

/-! ### The host port -/

/-- 10_state.md R22-R26: host accesses of the four registers. A write of OPA or OPB sets value and valid; a write of
STATUS is ignored; a read of a valid operand returns it; a read of CMD returns 0; a read of STATUS returns FAULT in bit
0, FCODE in 15:8, FOPC in 23:16 and 0 in every other bit, BUSY's among them. -/
def Obligations.HostRegisterAccess : Prop :=
  ∀ (s : State) (rest : List HostOp) (v : Word),
    (s.host = .write (s.params.base + 0x4) 4 v :: rest →
      step s = .next { s with host := rest, opa := { valid := true, value := v } }) ∧
    (s.host = .write (s.params.base + 0x8) 4 v :: rest →
      step s = .next { s with host := rest, opb := { valid := true, value := v } }) ∧
    (s.host = .write (s.params.base + 0xC) 4 v :: rest → step s = .next { s with host := rest }) ∧
    (s.host = .read s.params.base 4 :: rest → step s = .next { s with host := rest, reads := s.reads ++ [0] }) ∧
    (s.host = .read (s.params.base + 0x4) 4 :: rest → s.opa.valid = true →
      step s = .next { s with host := rest, reads := s.reads ++ [s.opa.value] }) ∧
    (s.host = .read (s.params.base + 0x8) 4 :: rest → s.opb.valid = true →
      step s = .next { s with host := rest, reads := s.reads ++ [s.opb.value] }) ∧
    (s.host = .read (s.params.base + 0xC) 4 :: rest →
      ∃ word : Word, step s = .next { s with host := rest, reads := s.reads ++ [word] } ∧
        word.getLsbD 0 = s.status.fault ∧ word.extractLsb' 1 7 = 0 ∧ word.extractLsb' 8 8 = s.status.fcode ∧
        word.extractLsb' 16 8 = s.status.fopc ∧ word.extractLsb' 24 8 = 0)

/-- 10_state.md R23, R24: a host read of an unwritten operand returns some 32-bit word, and changes nothing of the block
(only the model's counter of free values moves, log entry 3). -/
def Obligations.ReadOfUnwrittenOperandAnswers : Prop :=
  ∀ (s : State) (rest : List HostOp),
    (s.host = .read (s.params.base + 0x4) 4 :: rest ∧ s.opa.valid = false) ∨
      (s.host = .read (s.params.base + 0x8) 4 :: rest ∧ s.opb.valid = false) →
    ∃ (v : Word) (d : Nat), step s = .next { s with host := rest, reads := s.reads ++ [v], draws := d }

/-- 20_memory.md R47: an access at another width, or outside the four offsets, is refused. -/
def Obligations.AccessOutsideTheWindowIsRefused : Prop :=
  ∀ (s : State) (rest : List HostOp) (addr size : Nat) (v : Word),
    (size ≠ 4 ∨ (addr ≠ s.params.base ∧ addr ≠ s.params.base + 0x4 ∧ addr ≠ s.params.base + 0x8 ∧
      addr ≠ s.params.base + 0xC)) →
    s.host = .write addr size v :: rest ∨ s.host = .read addr size :: rest →
    step s = .refused .hostAccess

/-- 10_state.md R31, 20_memory.md R40, R41, R47: every step answers a next state but for the host's own misuse: a bus access
that is no aligned word of the window and a direct sink write of a width outside 1..32 are refused (log entries 11, 12),
and a direct append beyond the sink's counter faults (log entry 10). No command word, whatever the state, stops the
machine. -/
def Obligations.OnlyHostMisuseStops : Prop :=
  ∀ s : State,
    (∀ r, step s = .refused r ↔
      (r = .hostAccess ∧ ∃ rest addr size,
        ((∃ v, s.host = .write addr size v :: rest) ∨ s.host = .read addr size :: rest) ∧
        (size ≠ 4 ∨ (addr ≠ s.params.base ∧ addr ≠ s.params.base + 0x4 ∧ addr ≠ s.params.base + 0x8 ∧
          addr ≠ s.params.base + 0xC))) ∨
      (r = .sinkWriteWidth ∧ ∃ rest v n, s.host = .sinkWrite v n :: rest ∧ (n = 0 ∨ 32 < n))) ∧
    (∀ f, step s = .fault f →
      (∃ rest v n, s.host = .sinkWrite v n :: rest ∧ 2 ^ 32 - 1 < s.sink.length + n) ∨
      (∃ rest, (s.host = .sinkAlignZeros :: rest ∨ s.host = .sinkAlignOne :: rest) ∧ 2 ^ 32 - 1 < s.sink.length + 8))

/-- 20_memory.md R40: a direct host write of 1 to 32 bits appends the low-order bits of the value, most-significant first,
to the right end of the stream, where they fit it (OnlyHostMisuseStops says what stops). -/
def Obligations.HostSinkWriteAppendsField : Prop :=
  ∀ (s : State) (rest : List HostOp) (v : Word) (n : Nat), s.host = .sinkWrite v n :: rest →
    1 ≤ n → n ≤ 32 → s.sink.length + n ≤ 2 ^ 32 - 1 →
    step s = .next { s with host := rest, sink := s.sink ++ fixForm n v.toNat }

/-- 20_memory.md R42: aligning with zeros appends the fewest 0 bits that reach a byte boundary. Aligning with a one bit
only appends and reaches a byte boundary, by at most 8 bits, whatever its pattern: the spec gives no pattern, and this
much is the model's choice (log entry 9). -/
def Obligations.HostAlignmentReachesAByte : Prop :=
  ∀ (s : State) (rest : List HostOp),
    (s.host = .sinkAlignZeros :: rest → s.sink.length + 7 ≤ 2 ^ 32 - 1 →
      ∃ k, k < 8 ∧ (s.sink.length + k) % 8 = 0 ∧
        step s = .next { s with host := rest, sink := s.sink ++ List.replicate k false }) ∧
    (s.host = .sinkAlignOne :: rest → s.sink.length + 8 ≤ 2 ^ 32 - 1 →
      ∃ pad : Bits, pad.length ≤ 8 ∧ (s.sink.length + pad.length) % 8 = 0 ∧
        step s = .next { s with host := rest, sink := s.sink ++ pad })

/-- 20_memory.md R43: how an output is split into sink writes is not observable: any sequence of writes of 1 to 32 bits
leaves the sink with their concatenation. -/
def Obligations.SinkWriteGroupingIsInvisible : Prop :=
  ∀ (ws : List (Word × Nat)) (s : State),
    (∀ x ∈ ws, 1 ≤ x.2 ∧ x.2 ≤ 32) → s.host = ws.map (fun x => .sinkWrite x.1 x.2) →
    s.sink.length + (ws.map Prod.snd).sum ≤ 2 ^ 32 - 1 →
    Host.Core.run Sys2Proof.core ws.length s =
      .next { s with host := [], sink := s.sink ++ ws.flatMap fun x => fixForm x.2 x.1.toNat }

/-- 20_memory.md R44, R54: after the host's change of one handle, `Rec` gives the new record there and the old one
everywhere else, and nothing else changed; the store keeps its canonical form. -/
def Obligations.RecordChangeIsSeenAtItsHandleOnly : Prop :=
  ∀ (s : State) (h : Word) (r : Option Record) (rest : List HostOp), s.store.wf →
    s.host = .setRecord h r :: rest →
    ∃ m : Memory, step s = .next { s with host := rest, store := m } ∧ m.wf ∧ m.read h.toNat = r ∧
      ∀ k, k ≠ h.toNat → m.read k = s.store.read k

/-- 20_memory.md R45: in the byte view, stream bit k is bit 7 - (k mod 8) of byte floor(k / 8). -/
def Obligations.ByteViewIsMsbFirst : Prop :=
  ∀ (b : Bits) (k : Nat) (h : k < b.length),
    ((byteView b).getD (k / 8) 0).getLsbD (7 - k % 8) = b[k]

/-- 30_encoding.md R81: a pseudo-instruction of one operand runs as its expansion: after its two host writes the block
has run the command with OPA holding the value written; `put.tu` writes OPB too. -/
def Obligations.PseudoInstructionRunsItsCommand : Prop :=
  ∀ (p : Pseudo) (s : State) (rest : List HostOp),
    (match p with
      | .putU _ n => n < 64
      | .putEgk _ k => k < 64
      | .putF _ | .putUe _ | .putSe _ | .putTu _ _ | .putEgl _ | .encRps _ | .encEpo _ | .encWp _ | .encSl _ => True) →
    s.host = p.expand.map (Stmt.op s.params.base) ++ rest →
    let opa (v : Word) : State := { s with host := rest, opa := { valid := true, value := v } }
    Host.Core.run Sys2Proof.core p.expand.length s =
      match p with
      | .putU v n => exec (.fixed n) (opa v)
      | .putF b => exec .flag (opa b)
      | .putUe v => exec .uvlc (opa v)
      | .putSe v => exec .svlc (opa v)
      | .putTu symbol m => exec .tu { opa symbol with opb := { valid := true, value := m } }
      | .putEgl symbol => exec .eglvl (opa symbol)
      | .putEgk symbol k => exec (.egesc k) (opa symbol)
      | .encRps h => exec .rps (opa h)
      | .encEpo h => exec .epo (opa h)
      | .encWp h => exec .wp (opa h)
      | .encSl h => exec .sl (opa h)
end

