-- ==== Sys2Proof/Laws/Bits.lean ====
section
/-! SUPPORT. Bit sequences: lengths, the indexed form, and the number a sequence writes. -/

namespace Sys2Proof.Machine

open Sys2Proof.Safety

@[simp] theorem bitsMsb_length (n v : Nat) : (bitsMsb n v).length = n := by
  induction n with
  | zero => rfl
  | succ n ih => simp [bitsMsb, ih]

/-- Bit `k` of `bits_n(v)` is `v[n-1-k]` (00_scope.md R8). -/
theorem bitsMsb_getElem (n v k : Nat) (h : k < (bitsMsb n v).length) :
    (bitsMsb n v)[k] = v.testBit (n - 1 - k) := by
  induction n generalizing k with
  | zero => simp at h
  | succ n ih =>
    cases k with
    | zero => simp [bitsMsb]
    | succ k =>
      have hk : k < (bitsMsb n v).length := by simpa using h
      simpa [bitsMsb, show n - (k + 1) = n - 1 - k by omega] using ih k hk

/-- The recursive and the indexed form of `bits_n(v)` agree. -/
theorem bitsMsb_eq_fixForm (n v : Nat) : bitsMsb n v = fixForm n v := by
  apply List.ext_getElem
  · simp [fixForm]
  · intro k h _
    simp [fixForm, bitsMsb_getElem]

/-- The number written by a sequence after others. -/
theorem natOfBits_append_singleton (a : Bits) (b : Bool) : natOfBits (a ++ [b]) = 2 * natOfBits a + b.toNat := by
  simp [natOfBits]

/-- The number a first bit and the rest write. -/
theorem natOfBits_cons (b : Bool) (l : Bits) : natOfBits (b :: l) = b.toNat * 2 ^ l.length + natOfBits l := by
  have key : ∀ (l : Bits) (a : Nat), l.foldl (fun acc x => 2 * acc + x.toNat) a =
      a * 2 ^ l.length + l.foldl (fun acc x => 2 * acc + x.toNat) 0 := by
    intro l
    induction l with
    | nil => simp
    | cons x l ih =>
      intro a
      simp only [List.foldl_cons, List.length_cons]
      rw [ih (2 * a + x.toNat), ih (2 * 0 + x.toNat), pow_succ]
      ring
  simpa [natOfBits] using key l b.toNat

/-- `bits_n(v)` writes `v mod 2^n`. -/
theorem natOfBits_bitsMsb (n v : Nat) : natOfBits (bitsMsb n v) = v % 2 ^ n := by
  induction n with
  | zero => simp [bitsMsb, natOfBits, Nat.mod_one]
  | succ n ih =>
    rw [bitsMsb, natOfBits_cons, ih, bitsMsb_length, Nat.mod_pow_succ, Nat.toNat_testBit, Nat.mul_comm, Nat.add_comm]

/-- `bits_n` determines its number below `2^n`. -/
theorem bitsMsb_inj {n v w : Nat} (hv : v < 2 ^ n) (hw : w < 2 ^ n) (h : bitsMsb n v = bitsMsb n w) : v = w := by
  have := congrArg natOfBits h
  rwa [natOfBits_bitsMsb, natOfBits_bitsMsb, Nat.mod_eq_of_lt hv, Nat.mod_eq_of_lt hw] at this

/-- `bitlen(v)` is the least width that holds `v` (00_scope.md R9). -/
theorem bitlen_le_iff (v w : Nat) : bitlen v ≤ w ↔ v < 2 ^ w := by
  unfold bitlen
  split
  · next h => subst h; simp
  · next h => rw [← Nat.log2_lt h]; omega

/-- The width of a positive number is one more than its logarithm. -/
theorem floorLog2_succ (v : Nat) : floorLog2 (v + 1) = Nat.log 2 (v + 1) := by
  simp [floorLog2, bitlen, Nat.log2_eq_log_two]

/-- `floor(log2(v))` bounds `v` (00_scope.md R9). -/
theorem floorLog2_bounds (v : Nat) : 2 ^ floorLog2 (v + 1) ≤ v + 1 ∧ v + 1 < 2 ^ (floorLog2 (v + 1) + 1) := by
  rw [floorLog2_succ]
  exact ⟨Nat.pow_log_le_self 2 (by omega), Nat.lt_pow_succ_log_self (by omega) _⟩

end Sys2Proof.Machine
end

