-- ==== Sys2Proof/Laws/Codes.lean ====
section
/-! SUPPORT. What each code function answers (40_vlc.md section 1), one lemma each; the loop of `EGK` in closed form; and
the concatenation of codes. -/

namespace Sys2Proof.Machine

open Sys2Proof.Safety

/-- The length of `UE(v)` (40_vlc.md R101). -/
theorem ueBits_length (v : Nat) : (ueBits v).length = 2 * floorLog2 (v + 1) + 1 := by
  simp [ueBits, rep]; omega

/-- `UE` answers exactly in its range (40_vlc.md R101). -/
theorem ue_eq_ok {v : Int} {out : Bits} : ue v = .ok out ↔ (0 ≤ v ∧ v ≤ 2 ^ 32 - 2) ∧ out = ueBits v.toNat := by
  unfold ue uvlcMax
  split
  · next h => exact ⟨fun e => (by cases e), fun e => (by omega)⟩
  · next h =>
    simp only [Except.ok.injEq, eq_comm]
    exact ⟨fun e => ⟨by omega, e⟩, fun e => e.2⟩

/-- `UE` raises nothing but `UVLC_RANGE` (40_vlc.md R101). -/
theorem ue_eq_error {v : Int} {c : Cause} : ue v = .error c ↔ ¬(0 ≤ v ∧ v ≤ 2 ^ 32 - 2) ∧ c = .uvlcRange := by
  unfold ue uvlcMax
  split
  · next h =>
    simp only [Except.error.injEq, eq_comm]
    exact ⟨fun e => ⟨by omega, e⟩, fun e => e.2⟩
  · next h => exact ⟨fun e => (by cases e), fun e => absurd e.1 (by omega)⟩

/-- `SE` answers exactly in its range (40_vlc.md R103). -/
theorem se_eq_ok {v : Int} {out : Bits} :
    se v = .ok out ↔ (-(2 ^ 31 - 1) ≤ v ∧ v ≤ 2 ^ 31 - 1) ∧ out = ueBits (zigzag v).toNat := by
  unfold se svlcMin svlcMax
  split
  · next h => exact ⟨fun e => (by cases e), fun e => (by omega)⟩
  · next h =>
    rw [ue_eq_ok]
    unfold zigzag
    exact ⟨fun e => ⟨by omega, e.2⟩, fun e => ⟨by split <;> omega, e.2⟩⟩

/-- `SE` raises nothing but `SVLC_RANGE` (40_vlc.md R103). -/
theorem se_eq_error {v : Int} {c : Cause} :
    se v = .error c ↔ ¬(-(2 ^ 31 - 1) ≤ v ∧ v ≤ 2 ^ 31 - 1) ∧ c = .svlcRange := by
  unfold se svlcMin svlcMax
  split
  · next h =>
    simp only [Except.error.injEq, eq_comm]
    exact ⟨fun e => ⟨by omega, e⟩, fun e => e.2⟩
  · next h =>
    rw [ue_eq_error]
    unfold zigzag
    exact ⟨fun e => absurd (by split <;> omega) e.1, fun e => absurd e.1 (by omega)⟩

/-- The loop of `EGK` with enough turns left: `p` more ones, a zero, and the `c + p` low bits of what remains, where
the symbol lies between the thresholds of `p` (40_vlc.md R105, 30_encoding.md R75). -/
theorem egkLoop_eq (p fuel c r : Nat) (hf : p < fuel) (hlo : 2 ^ (c + p) - 2 ^ c ≤ r)
    (hhi : r < 2 ^ (c + p + 1) - 2 ^ c) :
    egkLoop fuel c r = rep true p ++ false :: bitsMsb (c + p) (r - (2 ^ (c + p) - 2 ^ c)) := by
  induction p generalizing fuel c r with
  | zero =>
    obtain ⟨fuel, rfl⟩ : ∃ k, fuel = k + 1 := ⟨fuel - 1, by omega⟩
    have : ¬2 ^ c ≤ r := by
      rw [Nat.add_zero, pow_succ] at hhi
      omega
    simp [egkLoop, this, rep]
  | succ p ih =>
    obtain ⟨fuel, rfl⟩ : ∃ k, fuel = k + 1 := ⟨fuel - 1, by omega⟩
    have e1 : 2 ^ (c + 1 + p) = 2 ^ (c + (p + 1)) := by ring
    have e2 : 2 ^ (c + 1) = 2 * 2 ^ c := by ring
    have hmono : 2 ^ (c + 1) ≤ 2 ^ (c + (p + 1)) := Nat.pow_le_pow_right (by omega) (by omega)
    have hc : 2 ^ c ≤ r := by omega
    have e3 : 2 ^ (c + 1 + p + 1) = 2 ^ (c + (p + 1) + 1) := by ring
    have e4 : r - 2 ^ c - (2 ^ (c + (p + 1)) - 2 ^ (c + 1)) = r - (2 ^ (c + (p + 1)) - 2 ^ c) := by omega
    have := ih fuel (c + 1) (r - 2 ^ c) (by omega) (by omega) (by omega)
    simp only [egkLoop, hc, if_true, this, rep, List.replicate_succ, List.cons_append, e1, e4]
    congr 4
    omega

/-- Codes in a row concatenate. -/
theorem concatCodes_append (a b : List Code) :
    concatCodes (a ++ b) = (do let x ← concatCodes a; let y ← concatCodes b; pure (x ++ y)) := by
  induction a with
  | nil => cases h : concatCodes b <;> simp [concatCodes, h, pure, Except.pure, bind, Except.bind]
  | cons c cs ih =>
    simp only [List.cons_append, concatCodes, ih]
    cases c <;> cases concatCodes cs <;> cases concatCodes b <;> simp [bind, Except.bind, pure, Except.pure]

/-- A concatenation that answers has every code answer, in order. -/
theorem concatCodes_eq_ok {cs : List Code} {out : Bits} :
    concatCodes cs = .ok out ↔ ∃ parts : List Bits, cs = parts.map .ok ∧ out = parts.flatten := by
  induction cs generalizing out with
  | nil =>
    refine ⟨fun h => ⟨[], rfl, by cases h; rfl⟩, fun ⟨parts, h, e⟩ => ?_⟩
    cases parts with
    | nil => simp [concatCodes, e]
    | cons => simp at h
  | cons c cs ih =>
    constructor
    · intro h
      cases c with
      | error e => simp [concatCodes, bind, Except.bind] at h
      | ok a =>
        cases hb : concatCodes cs with
        | error e => simp [concatCodes, hb, bind, Except.bind] at h
        | ok b =>
          obtain ⟨parts, rfl, rfl⟩ := ih.mp hb
          refine ⟨a :: parts, rfl, ?_⟩
          simpa [concatCodes, hb, bind, Except.bind, pure, Except.pure, eq_comm] using h
    · rintro ⟨parts, h, rfl⟩
      cases parts with
      | nil => simp at h
      | cons a parts =>
        obtain ⟨rfl, rfl⟩ : c = .ok a ∧ cs = parts.map .ok := by simpa using h
        simp [concatCodes, ih.mpr ⟨parts, rfl, rfl⟩, bind, Except.bind, pure, Except.pure]

/-- A concatenation that raises raises a fault of one of its codes. -/
theorem concatCodes_eq_error {cs : List Code} {c : Cause} (h : concatCodes cs = .error c) : Except.error c ∈ cs := by
  induction cs with
  | nil => cases h
  | cons a cs ih =>
    cases a with
    | error e =>
      obtain rfl : e = c := by simpa [concatCodes, bind, Except.bind] using h
      exact List.mem_cons_self
    | ok a =>
      cases hb : concatCodes cs with
      | error e =>
        obtain rfl : e = c := by simpa [concatCodes, hb, bind, Except.bind] using h
        exact List.mem_cons_of_mem _ (ih hb)
      | ok b => simp [concatCodes, hb, bind, Except.bind, pure, Except.pure] at h

end Sys2Proof.Machine
end

