-- ==== Sys2Proof/Laws/Decode.lean ====
section
/-! SUPPORT. What a word that decodes looks like, as numbers (30_encoding.md R60-R63). -/

namespace Sys2Proof

/-- The opcode field as a number. -/
theorem opcField_toNat (w : Word) : (opcField w).toNat = w.toNat % 256 := by
  simp [opcField, BitVec.extractLsb'_toNat]

/-- The immediate field as a number. -/
theorem immField_eq (w : Word) : immField w = w.toNat / 256 % 64 := by
  simp [immField, BitVec.extractLsb'_toNat, Nat.shiftRight_eq_div_pow]

/-- The reserved bits of format C0 as a number (30_encoding.md R62). -/
theorem reservedC0_iff (w : Word) : w.extractLsb' 8 24 = 0 ↔ w.toNat / 256 = 0 := by
  rw [← BitVec.toNat_inj]
  simp [BitVec.extractLsb'_toNat, Nat.shiftRight_eq_div_pow]
  omega

/-- The reserved bits of format CN as a number (30_encoding.md R62). -/
theorem reservedCN_iff (w : Word) : w.extractLsb' 14 18 = 0 ↔ w.toNat / 2 ^ 14 = 0 := by
  rw [← BitVec.toNat_inj]
  simp [BitVec.extractLsb'_toNat, Nat.shiftRight_eq_div_pow]
  omega

/-- A word that decodes to a command has its opcode, its immediate, and no reserved bit. -/
theorem decode_fields {w : Word} {i : Instr} (h : decode w = .ok i) :
    w.toNat % 256 = i.opcode.toNat ∧
    (match i with
      | .fixed n | .egesc n => w.toNat / 2 ^ 14 = 0 ∧ n = w.toNat / 256 % 64
      | .flag | .uvlc | .svlc | .tu | .eglvl | .rps | .epo | .wp | .sl => w.toNat / 256 = 0) := by
  unfold decode at h
  simp only [decodeC0, decodeCN, reservedC0_iff, reservedCN_iff, immField_eq, opcField_toNat] at h
  split at h <;> (try cases h) <;> split at h <;> cases h <;> simp_all [Instr.opcode]

/-- The mask of format CN leaves bits 7:0 and 31:14 to the row's match (30_encoding.md R60-R63). -/
theorem maskCN_iff (w : Word) (m : BitVec 8) :
    w &&& 0xFFFFC0FF = m.zeroExtend 32 ↔ w.extractLsb' 0 8 = m ∧ w.extractLsb' 14 18 = 0 := by
  constructor
  · intro h
    have bit (k : Nat) (hk : k < 32) : (w.getLsbD k && (0xFFFFC0FF : Word).getLsbD k) = (m.zeroExtend 32).getLsbD k := by
      rw [← h, BitVec.getLsbD_and]
    constructor
    · apply BitVec.eq_of_getLsbD_eq
      intro k hk
      have := bit k (by omega)
      interval_cases k <;> simpa using this
    · apply BitVec.eq_of_getLsbD_eq
      intro k hk
      have := bit (14 + k) (by omega)
      interval_cases k <;> simpa using this
  · rintro ⟨rfl, h⟩
    have high (k : Nat) (hk : k < 18) : w.getLsbD (14 + k) = false := by
      have := congrArg (fun v : BitVec 18 => v.getLsbD k) h
      simpa [hk] using this
    apply BitVec.eq_of_getLsbD_eq
    intro k hk
    by_cases hc : k < 14
    · interval_cases k <;> simp
    · obtain ⟨d, rfl⟩ := Nat.exists_eq_add_of_le (Nat.le_of_not_lt hc)
      rw [BitVec.getLsbD_and, high d (by omega)]
      simp
      omega

end Sys2Proof
end

