-- ==== Sys2Proof/Laws/State.lean ====
section
/-! SUPPORT. One lemma per field of the state for each operation that updates it, true by unfolding. -/

namespace Sys2Proof.Machine

variable (s : State)

/-! ### `State.append` -/

@[simp] theorem State.append_params (out : Bits) : (s.append out).params = s.params := rfl
@[simp] theorem State.append_opa (out : Bits) : (s.append out).opa = s.opa := rfl
@[simp] theorem State.append_opb (out : Bits) : (s.append out).opb = s.opb := rfl
@[simp] theorem State.append_status (out : Bits) : (s.append out).status = s.status := rfl
@[simp] theorem State.append_store (out : Bits) : (s.append out).store = s.store := rfl
@[simp] theorem State.append_host (out : Bits) : (s.append out).host = s.host := rfl
@[simp] theorem State.append_reads (out : Bits) : (s.append out).reads = s.reads := rfl
@[simp] theorem State.append_draws (out : Bits) : (s.append out).draws = s.draws := rfl
@[simp] theorem State.append_sink (out : Bits) : (s.append out).sink = s.sink ++ out := rfl

/-! ### `State.faultEntry` -/

@[simp] theorem State.faultEntry_params (c : Cause) (opc : BitVec 8) : (s.faultEntry c opc).params = s.params := rfl
@[simp] theorem State.faultEntry_opa (c : Cause) (opc : BitVec 8) : (s.faultEntry c opc).opa = s.opa := rfl
@[simp] theorem State.faultEntry_opb (c : Cause) (opc : BitVec 8) : (s.faultEntry c opc).opb = s.opb := rfl
@[simp] theorem State.faultEntry_sink (c : Cause) (opc : BitVec 8) : (s.faultEntry c opc).sink = s.sink := rfl
@[simp] theorem State.faultEntry_store (c : Cause) (opc : BitVec 8) : (s.faultEntry c opc).store = s.store := rfl
@[simp] theorem State.faultEntry_host (c : Cause) (opc : BitVec 8) : (s.faultEntry c opc).host = s.host := rfl
@[simp] theorem State.faultEntry_reads (c : Cause) (opc : BitVec 8) : (s.faultEntry c opc).reads = s.reads := rfl
@[simp] theorem State.faultEntry_draws (c : Cause) (opc : BitVec 8) : (s.faultEntry c opc).draws = s.draws := rfl
@[simp] theorem State.faultEntry_status (c : Cause) (opc : BitVec 8) : (s.faultEntry c opc).status = Status.ofFault c opc := rfl

/-! ### `State.writeOpa` -/

@[simp] theorem State.writeOpa_params (v : Word) : (s.writeOpa v).params = s.params := rfl
@[simp] theorem State.writeOpa_opb (v : Word) : (s.writeOpa v).opb = s.opb := rfl
@[simp] theorem State.writeOpa_status (v : Word) : (s.writeOpa v).status = s.status := rfl
@[simp] theorem State.writeOpa_sink (v : Word) : (s.writeOpa v).sink = s.sink := rfl
@[simp] theorem State.writeOpa_store (v : Word) : (s.writeOpa v).store = s.store := rfl
@[simp] theorem State.writeOpa_host (v : Word) : (s.writeOpa v).host = s.host := rfl
@[simp] theorem State.writeOpa_reads (v : Word) : (s.writeOpa v).reads = s.reads := rfl
@[simp] theorem State.writeOpa_draws (v : Word) : (s.writeOpa v).draws = s.draws := rfl
@[simp] theorem State.writeOpa_opa (v : Word) : (s.writeOpa v).opa = Operand.written v := rfl

/-! ### `State.writeOpb` -/

@[simp] theorem State.writeOpb_params (v : Word) : (s.writeOpb v).params = s.params := rfl
@[simp] theorem State.writeOpb_opa (v : Word) : (s.writeOpb v).opa = s.opa := rfl
@[simp] theorem State.writeOpb_status (v : Word) : (s.writeOpb v).status = s.status := rfl
@[simp] theorem State.writeOpb_sink (v : Word) : (s.writeOpb v).sink = s.sink := rfl
@[simp] theorem State.writeOpb_store (v : Word) : (s.writeOpb v).store = s.store := rfl
@[simp] theorem State.writeOpb_host (v : Word) : (s.writeOpb v).host = s.host := rfl
@[simp] theorem State.writeOpb_reads (v : Word) : (s.writeOpb v).reads = s.reads := rfl
@[simp] theorem State.writeOpb_draws (v : Word) : (s.writeOpb v).draws = s.draws := rfl
@[simp] theorem State.writeOpb_opb (v : Word) : (s.writeOpb v).opb = Operand.written v := rfl

/-! ### `State.respond` -/

@[simp] theorem State.respond_params (v : Word) : (s.respond v).params = s.params := rfl
@[simp] theorem State.respond_opa (v : Word) : (s.respond v).opa = s.opa := rfl
@[simp] theorem State.respond_opb (v : Word) : (s.respond v).opb = s.opb := rfl
@[simp] theorem State.respond_status (v : Word) : (s.respond v).status = s.status := rfl
@[simp] theorem State.respond_sink (v : Word) : (s.respond v).sink = s.sink := rfl
@[simp] theorem State.respond_store (v : Word) : (s.respond v).store = s.store := rfl
@[simp] theorem State.respond_host (v : Word) : (s.respond v).host = s.host := rfl
@[simp] theorem State.respond_draws (v : Word) : (s.respond v).draws = s.draws := rfl
@[simp] theorem State.respond_reads (v : Word) : (s.respond v).reads = s.reads ++ [v] := rfl

/-! ### `State.assertReset` -/

@[simp] theorem State.assertReset_params : (s.assertReset).params = s.params := rfl
@[simp] theorem State.assertReset_sink : (s.assertReset).sink = s.sink := rfl
@[simp] theorem State.assertReset_store : (s.assertReset).store = s.store := rfl
@[simp] theorem State.assertReset_host : (s.assertReset).host = s.host := rfl
@[simp] theorem State.assertReset_reads : (s.assertReset).reads = s.reads := rfl
@[simp] theorem State.assertReset_status : (s.assertReset).status = Status.clear := rfl
@[simp] theorem State.assertReset_draws : (s.assertReset).draws = s.draws + 2 := rfl
@[simp] theorem State.assertReset_opa_valid : s.assertReset.opa.valid = false := rfl
@[simp] theorem State.assertReset_opb_valid : s.assertReset.opb.valid = false := rfl

/-! ### Registers -/

@[simp] theorem Operand.written_valid (v : Word) : (Operand.written v).valid = true := rfl
@[simp] theorem Operand.written_value (v : Word) : (Operand.written v).value = v := rfl
@[simp] theorem Status.clear_fault : Status.clear.fault = false := rfl
@[simp] theorem Status.ofFault_fault (c : Cause) (opc : BitVec 8) : (Status.ofFault c opc).fault = true := rfl
@[simp] theorem Status.ofFault_fcode (c : Cause) (opc : BitVec 8) : (Status.ofFault c opc).fcode = c.code := rfl
@[simp] theorem Status.ofFault_fopc (c : Cause) (opc : BitVec 8) : (Status.ofFault c opc).fopc = opc := rfl
@[simp] theorem State.faulted_eq : s.faulted = s.status.fault := rfl

end Sys2Proof.Machine
end

