-- ==== Sys2Proof/Laws/Ops.lean ====
section
/-! SUPPORT. What the shared operations can do, said once each. -/

namespace Sys2Proof.Machine

/-- Everything the completion of a command can do: nothing while faulted, fault entry for a fault, the whole output where
it fits, `SINK_OVERFLOW` where it does not. -/
theorem State.complete_cases (s : State) (opc : BitVec 8) (r : Code) :
    (s.status.fault = true ∧ s.complete opc r = s) ∨
    (s.status.fault = false ∧ ∃ c, r = .error c ∧ s.complete opc r = s.faultEntry c opc) ∨
    (s.status.fault = false ∧ ∃ out, r = .ok out ∧ s.sink.length + out.length ≤ sinkMaxBits ∧
      s.complete opc r = s.append out) ∨
    (s.status.fault = false ∧ ∃ out, r = .ok out ∧ sinkMaxBits < s.sink.length + out.length ∧
      s.complete opc r = s.faultEntry .sinkOverflow opc) := by
  unfold State.complete
  cases hf : s.status.fault with
  | true => simp [hf]
  | false =>
    cases r with
    | error c => simp [hf]
    | ok out =>
      by_cases h : sinkMaxBits < s.sink.length + out.length
      · simp [hf, State.pos, h]
      · simp [hf, State.pos, h, Nat.le_of_not_lt h]

/-- A faulted block does nothing (60_exceptions.md R235). -/
theorem State.complete_of_faulted {s : State} (h : s.status.fault = true) (opc : BitVec 8) (r : Code) :
    s.complete opc r = s := by
  simp [State.complete, h]

/-- A fault of a command that runs is fault entry (60_exceptions.md R232). -/
theorem State.complete_error {s : State} (h : s.status.fault = false) (opc : BitVec 8) (c : Cause) :
    s.complete opc (.error c) = s.faultEntry c opc := by
  simp [State.complete, h]

/-- An output of a command that runs is appended where it fits (30_encoding.md R66). -/
theorem State.complete_ok {s : State} (h : s.status.fault = false) (opc : BitVec 8) {out : Bits}
    (hr : s.sink.length + out.length ≤ sinkMaxBits) : s.complete opc (.ok out) = s.append out := by
  simp [State.complete, h, State.pos, Nat.not_lt.mpr hr]

/-- An output that does not fit raises `SINK_OVERFLOW` (20_memory.md R41). -/
theorem State.complete_overflow {s : State} (h : s.status.fault = false) (opc : BitVec 8) {out : Bits}
    (hr : sinkMaxBits < s.sink.length + out.length) :
    s.complete opc (.ok out) = s.faultEntry .sinkOverflow opc := by
  simp [State.complete, h, State.pos, hr]

/-- A written operand register answers its value. -/
theorem Operand.get_of_valid {o : Operand} (h : o.valid = true) : o.get = .ok o.value := by
  simp [Operand.get, h]

/-- An unwritten operand register raises `UNWRITTEN_OPERAND` (10_state.md R23). -/
theorem Operand.get_of_unwritten {o : Operand} (h : o.valid = false) : o.get = .error .unwrittenOperand := by
  simp [Operand.get, h]

/-- What every read of OPA answers when OPA is written. -/
theorem State.opaU32_of_valid {s : State} (h : s.opa.valid = true) : s.opaU32 = .ok s.opa.value.toNat := by
  simp [State.opaU32, Operand.get_of_valid h, Except.map]

/-- The signed read of a written OPA. -/
theorem State.opaS32_of_valid {s : State} (h : s.opa.valid = true) : s.opaS32 = .ok s.opa.value.toInt := by
  simp [State.opaS32, Operand.get_of_valid h, Except.map]

/-- The read of a written OPB. -/
theorem State.opbU32_of_valid {s : State} (h : s.opb.valid = true) : s.opbU32 = .ok s.opb.value.toNat := by
  simp [State.opbU32, Operand.get_of_valid h, Except.map]

/-- The record a written OPA names. -/
theorem State.named_of_valid {s : State} (h : s.opa.valid = true) :
    s.named = .ok (s.store.read s.opa.value.toNat) := by
  simp [State.named, State.opaU32_of_valid h, Except.map]

/-- The register an access reaches, by its address: only an aligned word of the window is one (20_memory.md R47). -/
theorem regAt_eq_some (p : Params) (addr size : Nat) (r : Reg) :
    regAt p addr size = some r ↔ size = 4 ∧
      ((addr = p.base ∧ r = .cmd) ∨ (addr = p.base + 4 ∧ r = .opa) ∨ (addr = p.base + 8 ∧ r = .opb) ∨
       (addr = p.base + 12 ∧ r = .status)) := by
  unfold regAt
  by_cases hs : size = 4
  · by_cases h0 : addr = p.base
    · subst h0; cases r <;> simp [hs]
    · by_cases h1 : addr = p.base + 4
      · subst h1; cases r <;> simp [hs]
      · by_cases h2 : addr = p.base + 8
        · subst h2; cases r <;> simp [hs]
        · by_cases h3 : addr = p.base + 12
          · subst h3; cases r <;> simp [hs]
          · simp [hs, h0, h1, h2, h3]
  · simp [hs]

/-- An access reaches no register exactly where it is no aligned word of the window (20_memory.md R47). -/
theorem regAt_eq_none (p : Params) (addr size : Nat) :
    regAt p addr size = none ↔ size ≠ 4 ∨
      (addr ≠ p.base ∧ addr ≠ p.base + 0x4 ∧ addr ≠ p.base + 0x8 ∧ addr ≠ p.base + 0xC) := by
  rw [Option.eq_none_iff_forall_ne_some]
  simp only [ne_eq, regAt_eq_some]
  constructor
  · intro h
    by_contra hx
    simp only [not_or, not_and_or, not_not] at hx
    obtain ⟨h4, h0 | h0 | h0 | h0⟩ := hx
    · exact h .cmd ⟨h4, .inl ⟨h0, rfl⟩⟩
    · exact h .opa ⟨h4, .inr (.inl ⟨h0, rfl⟩)⟩
    · exact h .opb ⟨h4, .inr (.inr (.inl ⟨h0, rfl⟩))⟩
    · exact h .status ⟨h4, .inr (.inr (.inr ⟨h0, rfl⟩))⟩
  · intro h r
    omega

/-- The zero alignment is less than a byte and reaches a byte boundary (20_memory.md R42). -/
theorem alignZerosBits_spec (pos : Nat) :
    (alignZerosBits pos).length < 8 ∧ (pos + (alignZerosBits pos).length) % 8 = 0 := by
  simp only [alignZerosBits, rep, List.length_replicate]
  omega

/-- The one alignment, whatever its pattern, is at most a byte and reaches a byte boundary (20_memory.md R42). -/
theorem alignOneBits_spec (pos : Nat) :
    (alignOneBits pos).length ≤ 8 ∧ (pos + (alignOneBits pos).length) % 8 = 0 := by
  simp only [alignOneBits, bitsMsb_length]
  split_ifs <;> constructor <;> omega

/-- No read of a register changes anything but the returned data and the counter of free values (20_memory.md R47). -/
theorem State.readReg_eq (s : State) (r : Reg) :
    ∃ v d, s.readReg r = { s with reads := s.reads ++ [v], draws := d } := by
  cases r with
  | cmd => exact ⟨0, s.draws, rfl⟩
  | status => exact ⟨s.status.word, s.draws, rfl⟩
  | opa =>
    by_cases h : s.opa.valid = true
    · exact ⟨s.opa.value, s.draws, by simp [State.readReg, State.respondOperand, h, State.respond]⟩
    · exact ⟨Config.freeWord s.draws, s.draws + 1, by simp [State.readReg, State.respondOperand, h, State.respond]⟩
  | opb =>
    by_cases h : s.opb.valid = true
    · exact ⟨s.opb.value, s.draws, by simp [State.readReg, State.respondOperand, h, State.respond]⟩
    · exact ⟨Config.freeWord s.draws, s.draws + 1, by simp [State.readReg, State.respondOperand, h, State.respond]⟩

end Sys2Proof.Machine
end

