-- ==== Sys2Proof/Laws/PerInstr.lean ====
section
/-! SUPPORT. Facts about every command as syntax, one lemma per constructor. -/

namespace Sys2Proof.Laws.EncodedOpcode

/-- The encoded word carries the opcode of the command's row in bits 7:0 (30_encoding.md R60). -/
def Statement (i : Instr) : Prop := opcField (encode i) = i.opcode

/-- A word shifted left by 8 leaves bits 7:0 to the opcode. -/
theorem opcField_or_shift (a : BitVec 8) (n : Nat) :
    opcField (a.zeroExtend 32 ||| (BitVec.ofNat 32 n <<< 8)) = a := by
  apply BitVec.eq_of_getLsbD_eq
  intro k hk
  simp [opcField, hk, show k < 32 by omega]

theorem fixed (nbits : Nat) : Statement (.fixed nbits) := opcField_or_shift _ _
theorem flag : Statement .flag := opcField_or_shift _ _
theorem uvlc : Statement .uvlc := opcField_or_shift _ _
theorem svlc : Statement .svlc := opcField_or_shift _ _
theorem tu : Statement .tu := opcField_or_shift _ _
theorem eglvl : Statement .eglvl := opcField_or_shift _ _
theorem egesc (order : Nat) : Statement (.egesc order) := opcField_or_shift _ _
theorem rps : Statement .rps := opcField_or_shift _ _
theorem epo : Statement .epo := opcField_or_shift _ _
theorem wp : Statement .wp := opcField_or_shift _ _
theorem sl : Statement .sl := opcField_or_shift _ _

end Sys2Proof.Laws.EncodedOpcode
end

