-- ==== Sys2Proof/Laws/Exec.lean ====
section
/-! SUPPORT. Every command in one shape: `exec` is the shared completion of the answer of steps 3 to 5 of 30_encoding.md
R66, so a claim about a command is a claim about that answer. -/

namespace Sys2Proof.Machine

open Sys2Proof.Safety

/-- What steps 3 to 5 of 30_encoding.md R66 answer for a command. -/
def codeOf : Instr → State → Code
  | .fixed n, s => do fix (← s.opaU32) n
  | .flag, s => do fix (← s.opaU32) 1
  | .uvlc, s => do ue (← s.opaU32)
  | .svlc, s => do se (← s.opaS32)
  | .tu, s => do let a ← s.opaU32; let b ← s.opbU32; truncatedUnary a b
  | .eglvl, s => do egl (← s.opaU32)
  | .egesc k, s => do egk (← s.opaU32) k
  | .rps, s => do let r ← s.rpsOperand; rpsPrecond r; rpsBits r
  | .epo, s => do epoBits s.params (← s.epoOperand) s.pos
  | .wp, s => do wpBits s.params (← s.wpOperand)
  | .sl, s => do slBits s.params (← s.slOperand)

/-- Every command is the completion of its answer. -/
theorem exec_eq (i : Instr) (s : State) : exec i s = .next (s.complete i.opcode (codeOf i s)) := by
  cases i <;> rfl

/-- The opcode field of a command's word is its opcode. -/
theorem opcField_encode (i : Instr) : opcField (encode i) = i.opcode :=
  Sys2Proof.Laws.EncodedOpcode.opcField_or_shift _ _

/-- Fault entry is the fault state of Safety.lean. -/
theorem faultEntry_eq (i : Instr) (s : State) (c : Cause) : s.faultEntry c i.opcode = faultState s i c.code := by
  simp [faultState, opcField_encode, State.faultEntry, Status.ofFault]

/-- A command whose answer is a fault raises it. -/
theorem raises_of_codeOf {i : Instr} {s : State} (c : Cause) (hf : s.status.fault = false)
    (h : codeOf i s = .error c) : Raises i s c.code := by
  rw [Raises, exec_eq, h, State.complete_error hf, faultEntry_eq]

/-- A command whose answer is a bit sequence outputs it. -/
theorem outputs_of_codeOf {i : Instr} {s : State} {out : Bits} (hf : s.status.fault = false)
    (h : codeOf i s = .ok out) : Outputs i s out := by
  refine ⟨fun hr => ?_, fun hr => ?_⟩
  · rw [exec_eq, h, State.complete_ok hf _ (by simpa [sinkMaxBits] using hr)]; rfl
  · rw [Raises, exec_eq, h, State.complete_overflow hf _ (by simpa [sinkMaxBits] using hr), faultEntry_eq]; rfl

/-- The answer of a command other than EPO does not depend on the sink (70_reset_and_hazards.md R269). -/
theorem codeOf_sink (i : Instr) (s : State) (k : Bits) (hi : i ≠ .epo) : codeOf i { s with sink := k } = codeOf i s := by
  cases i <;> first | rfl | exact absurd rfl hi

/-- The completion of a command changes at most STATUS and the sink, and the sink only grows. -/
theorem State.complete_frame (s : State) (opc : BitVec 8) (r : Code) :
    (s.complete opc r).params = s.params ∧ (s.complete opc r).opa = s.opa ∧ (s.complete opc r).opb = s.opb ∧
    (s.complete opc r).store = s.store ∧ (s.complete opc r).host = s.host ∧ (s.complete opc r).reads = s.reads ∧
    (s.complete opc r).draws = s.draws ∧ s.sink <+: (s.complete opc r).sink := by
  rcases s.complete_cases opc r with ⟨h, e⟩ | ⟨_, c, _, e⟩ | ⟨_, out, _, hl, e⟩ | ⟨_, out, _, hl, e⟩ <;> rw [e] <;> simp

/-- The code of a cause lies in 0x01..0x0D (60_exceptions.md R231). -/
theorem Cause.code_bounds (c : Cause) : 1 ≤ c.code.toNat ∧ c.code.toNat ≤ 0x0D := by cases c <;> decide

/-- Equal registers but for an unwritten value answer the same read. -/
theorem Operand.get_same {a b : Operand} (h : sameOperand a b) : a.get = b.get := by
  obtain ⟨h1, h2⟩ := h
  unfold Operand.get
  rw [← h1]
  split
  · rw [h2 ‹_›]
  · rfl

/-- A command's answer does not see the value of an unwritten operand register (10_state.md R23). -/
theorem codeOf_same (i : Instr) {s t : State} (h : sameButUnwritten s t) : codeOf i t = codeOf i s := by
  obtain ⟨ha, hb, e⟩ := h
  have e1 := Operand.get_same ha
  have e2 := Operand.get_same hb
  have e3 : t.store = s.store := by rw [e]
  have e4 : t.params = s.params := by rw [e]
  have e5 : t.pos = s.pos := by rw [e]; rfl
  cases i <;> simp [codeOf, State.opaU32, State.opaS32, State.opbU32, State.rpsOperand, State.epoOperand,
    State.wpOperand, State.slOperand, State.named, e1, e2, e3, e4, e5]

/-- The answer of RPS with a well-shaped record (41_rps.md R160). -/
theorem codeOf_rps {s : State} {r : RpsRecord} (hv : s.opa.valid = true)
    (hr : s.store.read s.opa.value.toNat = some (.rps r)) (hu : r.used.length = r.deltaPoc.length) :
    codeOf .rps s = (do rpsPrecond r; rpsBits r) := by
  simp [codeOf, State.rpsOperand, State.named_of_valid hv, hr, asRps, rpsShapeOk, hu, bind, Except.bind]

/-- The answer of EPO with its record (42_entry_point.md R180). -/
theorem codeOf_epo {s : State} {r : EpoRecord} (hv : s.opa.valid = true)
    (hr : s.store.read s.opa.value.toNat = some (.epo r)) : codeOf .epo s = epoBits s.params r s.sink.length := by
  simp [codeOf, State.epoOperand, State.named_of_valid hv, hr, asEpo, bind, Except.bind, State.pos]

/-- The answer of WP with its record (43_weighted_pred.md R200). -/
theorem codeOf_wp {s : State} {r : WpRecord} (hv : s.opa.valid = true)
    (hr : s.store.read s.opa.value.toNat = some (.wp r)) : codeOf .wp s = wpBits s.params r := by
  simp [codeOf, State.wpOperand, State.named_of_valid hv, hr, asWp, bind, Except.bind]

/-- The two forms of the shape rule of an `SlRecord` agree (30_encoding.md R74). -/
theorem slShapeOk_iff (p : Params) (r : SlRecord) : slShapeOk p r = true ↔ slShape p r := by
  simp only [slShapeOk, slClassShapeOk, slShape, Bool.and_eq_true, beq_iff_eq, List.all_eq_true,
    List.mem_zipIdx_iff_getElem?, Bool.or_eq_true, Bool.not_eq_true', decide_eq_true_eq]
  refine and_congr_right fun _ => ⟨fun h c hc => ?_, fun h x hx => ?_⟩
  · have := h (p.slClasses[c], c) (by simp [hc])
    refine ⟨this.1.1, this.1.2, fun hd => ?_⟩
    rcases this.2 with h' | h'
    · simp at h'; simp [h'] at hd
    · exact h'
  · obtain ⟨cls, c⟩ := x
    obtain ⟨hc, e⟩ := List.getElem?_eq_some_iff.mp hx
    dsimp only at hc e ⊢
    subst e
    have := h c hc
    refine ⟨⟨this.1, this.2.1⟩, ?_⟩
    cases hd : p.slClasses[c].hasDc
    · simp
    · right; exact this.2.2 hd

/-- The answer of SL with a well-shaped record (44_scaling_list.md R220). -/
theorem codeOf_sl {s : State} {r : SlRecord} (hv : s.opa.valid = true)
    (hr : s.store.read s.opa.value.toNat = some (.sl r)) (h : slShape s.params r) :
    codeOf .sl s = slBits s.params r := by
  simp [codeOf, State.slOperand, State.named_of_valid hv, hr, asSl, (slShapeOk_iff _ _).mpr h, bind, Except.bind]

end Sys2Proof.Machine
end

