-- ==== Sys2Proof/Laws/Fields.lean ====
section
/-! SUPPORT. The codes of 40_vlc.md in closed form, and a list of codes as the fields of Safety.lean. -/

namespace Sys2Proof.Machine

open Sys2Proof.Safety

/-- `UE` in the closed form of 30_encoding.md R75. -/
theorem ueForm_eq (v : Nat) : ueForm v = ueBits v := by
  have key : ∀ n v : Nat, 2 ^ n ≤ v → v < 2 ^ (n + 1) → (Nat.bits v).reverse = bitsMsb (n + 1) v := by
    intro n
    induction n with
    | zero =>
      intro v h1 h2
      obtain rfl : v = 1 := by omega
      rfl
    | succ n ih =>
      intro v h1 h2
      have h0 : 2 * (v / 2) + v % 2 = v := Nat.div_add_mod v 2
      have e : v = Nat.bit (v % 2 == 1) (v / 2) := by
        rcases Nat.mod_two_eq_zero_or_one v with h | h <;> simp [Nat.bit, h] <;> omega
      have hb : Nat.bits v = (v % 2 == 1) :: Nat.bits (v / 2) := by
        conv_lhs => rw [e]
        rw [Nat.bits_append_bit]
        intro h
        rw [pow_succ] at h1
        have := Nat.one_le_two_pow (n := n)
        omega
      rw [hb, List.reverse_cons, ih (v / 2) (by rw [pow_succ] at h1; omega) (by rw [pow_succ] at h2; omega)]
      apply List.ext_getElem
      · simp
      · intro k h _
        rw [List.getElem_append]
        split
        · next hk =>
          rw [bitsMsb_getElem, bitsMsb_getElem, ← Nat.testBit_succ]
          simp at hk
          congr 1
          omega
        · next hk =>
          simp at hk h
          obtain rfl : k = n + 1 := by omega
          rw [bitsMsb_getElem]
          simp [Nat.testBit_zero]
          rfl
  have ⟨h1, h2⟩ := floorLog2_bounds v
  simp only [ueForm, ueBits, ← floorLog2_succ, key _ _ h1 h2, rep]

/-- `SE` in the closed form of 30_encoding.md R75. -/
theorem seForm_eq (v : Int) : seForm v = ueBits (zigzag v).toNat := by
  rw [seForm, ueForm_eq]
  unfold zigzag
  congr 1
  split <;> split <;> omega

/-- A symbol in range has its number of prefix ones, and the loop of `EGK` stays below `c = 32` (40_vlc.md R105). -/
theorem exists_prefixCount (s k : Nat) (hk : k ≤ 31) (hs : s < 2 ^ 32 - 2 ^ k) :
    ∃ p, IsPrefixCount s k p ∧ k + p < 32 ∧ 2 ^ (k + p) - 2 ^ k ≤ s := by
  have h31 : s < 2 ^ (k + (31 - k) + 1) - 2 ^ k := by rwa [show k + (31 - k) + 1 = 32 by omega]
  have he : ∃ p, s < 2 ^ (k + p + 1) - 2 ^ k := ⟨31 - k, h31⟩
  refine ⟨Nat.find he, ⟨Nat.find_spec he, fun q hq => Nat.find_min' he hq⟩, ?_, ?_⟩
  · have := Nat.find_min' he h31
    omega
  · by_contra h
    have hp : Nat.find he ≠ 0 := by
      intro e
      rw [e] at h
      simp at h
    have hq : k + (Nat.find he - 1) + 1 = k + Nat.find he := by omega
    have := Nat.find_min' he (show s < 2 ^ (k + (Nat.find he - 1) + 1) - 2 ^ k by rw [hq]; omega)
    omega

/-- `EGK` in the closed form of 30_encoding.md R75, for the number of prefix ones of its symbol. -/
theorem egk_of_prefixCount {s k p : Nat} (hk : k ≤ 31) (hs : s < 2 ^ 32 - 2 ^ k) (hp : IsPrefixCount s k p) :
    egk s k = .ok (egkForm s k p) := by
  obtain ⟨q, hq, h1, h2⟩ := exists_prefixCount s k hk hs
  obtain rfl : p = q := Nat.le_antisymm (hp.2 _ hq.1) (hq.2 _ hp.1)
  unfold egk
  rw [if_neg (by unfold egescMaxOrder; omega), egkLoop_eq p 32 k s (by omega) h2 hp.1]
  simp [egkForm, rep, bitsMsb_eq_fixForm]

/-- The code of a field. -/
def Field.code : Field → Code
  | .bit b => oneBit b
  | .ue v => ue v
  | .se v => se v

/-- A field in range answers its bits. -/
theorem Field.code_of_inRange {f : Field} (h : f.inRange = true) : Field.code f = .ok f.bits := by
  cases f with
  | bit b => rfl
  | ue v =>
    simp only [Field.code, Field.bits]
    rw [ue_eq_ok, ueForm_eq]
    exact ⟨by simpa [Field.inRange] using h, rfl⟩
  | se v =>
    simp only [Field.code, Field.bits]
    rw [se_eq_ok, seForm_eq]
    exact ⟨by simpa [Field.inRange] using h, rfl⟩

/-- A field out of range raises the fault of its code. -/
theorem Field.code_of_outOfRange {f : Field} (h : f.inRange = false) :
    ∃ c, Field.code f = .error c ∧ c.code = f.faultCode := by
  cases f with
  | bit b => cases h
  | ue v => exact ⟨.uvlcRange, ue_eq_error.mpr ⟨by simpa [Field.inRange] using h, rfl⟩, rfl⟩
  | se v => exact ⟨.svlcRange, se_eq_error.mpr ⟨by simpa [Field.inRange] using h, rfl⟩, rfl⟩

/-- Fields in range concatenate. -/
theorem concatCodes_of_inRange {fs : List Field} (h : fs.all Field.inRange = true) :
    concatCodes (fs.map Field.code) = .ok (fieldBits fs) := by
  induction fs with
  | nil => rfl
  | cons f fs ih =>
    simp only [List.all_cons, Bool.and_eq_true] at h
    simp [concatCodes, Field.code_of_inRange h.1, ih h.2, bind, Except.bind, pure, Except.pure, fieldBits]

/-- The first field out of range decides the fault (60_exceptions.md R234). -/
theorem concatCodes_of_first {pre post : List Field} {f : Field} {c : Cause} (h : pre.all Field.inRange = true)
    (hf : Field.code f = .error c) : concatCodes ((pre ++ f :: post).map Field.code) = .error c := by
  rw [List.map_append, concatCodes_append, concatCodes_of_inRange h, List.map_cons]
  simp [concatCodes, hf, bind, Except.bind]

/-- A command whose answer is the concatenation of fields codes those fields. -/
theorem codes_of_codeOf {i : Instr} {s : State} {fs : List Field} (hf : s.status.fault = false)
    (h : codeOf i s = concatCodes (fs.map Field.code)) : Codes i s fs := by
  refine ⟨fun hi => outputs_of_codeOf hf (h.trans (concatCodes_of_inRange hi)), ?_⟩
  intro pre f post e hp hr
  obtain ⟨c, hc, hcode⟩ := Field.code_of_outOfRange hr
  rw [← hcode]
  exact raises_of_codeOf c hf (by rw [h, e, concatCodes_of_first hp hc])

end Sys2Proof.Machine
end

