-- ==== Sys2Proof/Laws/Epo.lean ====
section
/-! SUPPORT. EPO: the offsets by index, the trimming of trailing zeros, the maximum and the width (42_entry_point.md). -/

namespace Sys2Proof.Machine

open Sys2Proof.Safety

/-- Successive differences by index (42_entry_point.md R172). -/
theorem tileOffsets_getD (as : List Int) (prev : Int) (i : Nat) (h : i < as.length) :
    (tileOffsets prev as).getD i 0 = as.getD i 0 - (if i = 0 then prev else as.getD (i - 1) 0) := by
  induction as generalizing prev i with
  | nil => simp at h
  | cons a as ih =>
    cases i with
    | zero => simp [tileOffsets]
    | succ i =>
      simp only [tileOffsets, List.getD_cons_succ]
      rw [ih a i (by simpa using h)]
      cases i <;> simp

/-- One offset per address. -/
@[simp] theorem tileOffsets_length (as : List Int) (prev : Int) : (tileOffsets prev as).length = as.length := by
  induction as generalizing prev with
  | nil => rfl
  | cons a as ih => simp [tileOffsets, ih]

/-- A tile offset of a record by index (42_entry_point.md R172). -/
theorem tileOffsets_getElem (r : EpoRecord) (i : Nat) (h : i < r.tileAddr.length)
    (h' : i < (tileOffsets 0 (r.tileAddr.map fun a => (a.toNat : Int))).length) :
    (tileOffsets 0 (r.tileAddr.map fun a => (a.toNat : Int)))[i] =
      ((r.tileAddr.getD i 0).toNat : Int) - (if i = 0 then 0 else (r.tileAddr.getD (i - 1) 0).toNat) := by
  have := tileOffsets_getD (r.tileAddr.map fun a => (a.toNat : Int)) 0 i (by simpa using h)
  rw [List.getD_eq_getElem _ _ h'] at this
  have g : ∀ j, (r.tileAddr.map fun a => (a.toNat : Int)).getD j 0 = ((r.tileAddr.getD j 0).toNat : Int) := by
    intro j
    simp only [List.getD_eq_getElem?_getD, List.getElem?_map]
    cases r.tileAddr[j]? <;> simp
  rw [this, g, g]
  split <;> simp

/-- Some offset is negative exactly where the addresses decrease (42_entry_point.md R172). -/
theorem tileOffsets_any_neg (r : EpoRecord) :
    (tileOffsets 0 (r.tileAddr.map fun a => (a.toNat : Int))).any (fun d => decide (d < 0)) = true ↔
      tilesDecrease r := by
  rw [List.any_eq_true]
  constructor
  · rintro ⟨d, hd, h⟩
    obtain ⟨i, hi, rfl⟩ := List.getElem_of_mem hd
    have hi' : i < r.tileAddr.length := by simpa using hi
    rw [tileOffsets_getElem r i hi', decide_eq_true_eq] at h
    refine ⟨i, ?_, hi', ?_⟩
    · by_contra h0
      rw [if_pos (by omega)] at h
      omega
    · split at h <;> omega
  · rintro ⟨i, h0, hi, h⟩
    have hl : i < (tileOffsets 0 (r.tileAddr.map fun a => (a.toNat : Int))).length := by simpa using hi
    refine ⟨_, List.getElem_mem hl, ?_⟩
    rw [tileOffsets_getElem r i hi, if_neg (by omega), decide_eq_true_eq]
    omega

/-- Trimming is the library's (42_entry_point.md R173). -/
theorem trimZeros_eq (l : List Nat) : trimZeros l = l.rdropWhile (fun n => decide (n = 0)) := by
  induction l with
  | nil => rfl
  | cons x l ih =>
    rw [trimZeros, ih]
    unfold List.rdropWhile
    rw [List.reverse_cons, List.dropWhile_append]
    cases h : List.dropWhile (fun n => decide (n = 0)) l.reverse with
    | nil => by_cases hx : x = 0 <;> simp [hx]
    | cons y ys =>
      simp only [List.isEmpty_cons, Bool.false_eq_true, if_false, List.reverse_append, List.reverse_cons,
        List.reverse_nil, List.nil_append, List.cons_append]
      generalize hz : ys.reverse ++ [y] = z
      cases z with
      | nil => simp at hz
      | cons a b => simp

/-- More trailing zeros are trimmed away too (42_entry_point.md R173). -/
theorem trimZeros_append_zeros (l : List Nat) (z : Nat) : trimZeros (l ++ List.replicate z 0) = trimZeros l := by
  induction l with
  | nil =>
    induction z with
    | zero => rfl
    | succ z ih =>
      rw [List.nil_append] at ih ⊢
      rw [List.replicate_succ]
      show (match trimZeros (List.replicate z 0) with
        | [] => if 0 = 0 then [] else [0]
        | y :: ys => 0 :: y :: ys) = []
      rw [ih]
      rfl
  | cons x l ih => rw [List.cons_append, trimZeros, ih, trimZeros]

/-- The offsets before correction by index (42_entry_point.md R172, R173). -/
theorem epoOffsets_eq {r : EpoRecord} (hm : r.mode ≠ .none) (hd : ¬(r.mode = .tiles ∧ tilesDecrease r)) :
    epoOffsets r = .ok (epoOffsetsForm r) := by
  unfold epoOffsets epoOffsetsForm
  cases h : r.mode with
  | none => exact absurd h hm
  | wavefront => simp only [trimZeros_eq]
  | tiles =>
    simp only
    rw [if_neg (by rw [tileOffsets_any_neg]; exact fun hx => hd ⟨h, hx⟩)]
    congr 1
    apply List.ext_getElem
    · simp
    · intro i h1 h2
      have hi : i < r.tileAddr.length := by simpa using h2
      simp only [List.getElem_map, List.getElem_range]
      rw [tileOffsets_getElem r i hi]
      split <;> omega

/-- The running maximum is the maximum. -/
theorem maxOffset_eq (l : List Nat) : maxOffset l = l.foldr max 0 := by
  unfold maxOffset
  rw [List.foldl_eq_foldr]

/-- The width is the least that holds the number (42_entry_point.md R175). -/
theorem bitlen_eq {M w : Nat} (h1 : M < 2 ^ w) (h2 : ∀ w', M < 2 ^ w' → w ≤ w') : bitlen M = w :=
  Nat.le_antisymm ((bitlen_le_iff M w).mpr h1) (h2 _ ((bitlen_le_iff M _).mp (Nat.le_refl _)))

/-- The offsets in `w` bits each (42_entry_point.md R176). -/
theorem concatCodes_fix {w : Nat} (h0 : 0 < w) (h : w ≤ 32) (l : List Nat) :
    concatCodes (l.map fun o => fix o w) = .ok (l.flatMap (fixForm w)) := by
  induction l with
  | nil => rfl
  | cons a l ih =>
    have : fix a w = .ok (fixForm w a) := by
      unfold fix sinkMaxNbits
      rw [if_neg (by omega), bitsMsb_eq_fixForm]
    simp [concatCodes, this, ih, bind, Except.bind, pure, Except.pure]

/-- The answer of EPO with offsets to code, before the width check (42_entry_point.md R178). -/
theorem epoBits_eq {p : Params} {r : EpoRecord} {B0 : Nat} (hm : r.mode ≠ .none)
    (hd : ¬(r.mode = .tiles ∧ tilesDecrease r)) :
    epoBits p r B0 =
      if 32 < bitlen (epoAdjustedMax p B0 (epoOffsetsForm r)) then .error .epoCapacity
      else epoTable p B0 (bitlen (epoAdjustedMax p B0 (epoOffsetsForm r))) (epoOffsetsForm r) := by
  have ho := epoOffsets_eq hm hd
  unfold epoBits
  cases h : r.mode with
  | none => exact absurd h hm
  | tiles => simp only [ho, bind, Except.bind]; rfl
  | wavefront => simp only [ho, bind, Except.bind]; rfl

end Sys2Proof.Machine
end

