-- ==== Sys2Proof/Laws/Memory.lean ====
section
/-! SUPPORT. The descriptor store: `Memory.set` keeps the canonical form, and a read after it. -/

namespace Sys2Proof.Machine

/-- What `Memory.set` leaves has only the handle it set and handles that were there. -/
theorem Memory.set_keys (m : Memory) (h : Nat) (r : Option Record) (x : Nat × Record)
    (hx : x ∈ m.set h r) : x.1 = h ∨ x ∈ m := by
  induction m with
  | nil => cases r <;> simp_all [Memory.set]
  | cons y m ih =>
    obtain ⟨k, v⟩ := y
    simp only [Memory.set] at hx
    split at hx
    · rcases List.mem_cons.mp hx with rfl | hx
      · exact .inr List.mem_cons_self
      · exact (ih hx).imp_right (List.mem_cons_of_mem _)
    · have hrest : x ∈ (if k = h then m else (k, v) :: m) → x ∈ (k, v) :: m := by
        split
        · exact List.mem_cons_of_mem _
        · exact id
      cases r with
      | none => exact .inr (hrest hx)
      | some r =>
        rcases List.mem_cons.mp hx with rfl | hx
        · exact .inl rfl
        · exact .inr (hrest hx)

/-- Changing one handle keeps the canonical form. -/
theorem Memory.set_wf (m : Memory) (h : Nat) (r : Option Record) (hh : h < 2 ^ 32) (hm : m.wf) : (m.set h r).wf := by
  refine ⟨?_, fun x hx => (Memory.set_keys m h r x hx).elim (fun e => e ▸ hh) (hm.2 x)⟩
  have hp := hm.1
  clear hm
  induction m with
  | nil => cases r <;> simp [Memory.set]
  | cons y m ih =>
    obtain ⟨k, v⟩ := y
    obtain ⟨hk, hp⟩ := List.pairwise_cons.mp hp
    simp only [Memory.set]
    split
    · next hlt =>
      refine List.pairwise_cons.mpr ⟨fun x hx => ?_, ih hp⟩
      exact (Memory.set_keys m h r x hx).elim (fun e => e ▸ hlt) (hk x)
    · next hge =>
      by_cases hkh : k = h
      · subst hkh
        cases r with
        | none => simpa using hp
        | some r => simpa using ⟨fun a b h => hk (a, b) h, hp⟩
      · have hlt : h < k := by omega
        have hall : ∀ x ∈ (k, v) :: m, h < x.1 := by
          intro x hx
          rcases List.mem_cons.mp hx with rfl | hx
          · exact hlt
          · exact hlt.trans (hk x hx)
        cases r with
        | none => simpa [hkh] using ⟨fun a b h => hk (a, b) h, hp⟩
        | some r =>
          simp only [hkh, if_false]
          exact List.pairwise_cons.mpr ⟨hall, List.pairwise_cons.mpr ⟨hk, hp⟩⟩

/-- A handle below every handle of a store names nothing in it. -/
theorem Memory.read_of_lt (m : Memory) (h : Nat) (hm : ∀ x ∈ m, h < x.1) : m.read h = none := by
  induction m with
  | nil => rfl
  | cons y m ih =>
    have hy := hm y List.mem_cons_self
    simp only [Memory.read, if_neg (show ¬y.1 = h by omega)]
    exact ih fun x hx => hm x (List.mem_cons_of_mem _ hx)

/-- `Rec` of the handle just set gives what was set. -/
theorem Memory.read_set_same (m : Memory) (h : Nat) (r : Option Record) (hm : m.wf) : (m.set h r).read h = r := by
  have hp := hm.1
  clear hm
  induction m with
  | nil => cases r <;> simp [Memory.set, Memory.read]
  | cons y m ih =>
    obtain ⟨k, v⟩ := y
    obtain ⟨hk, hp⟩ := List.pairwise_cons.mp hp
    simp only [Memory.set]
    split
    · next hlt =>
      simp only [Memory.read, if_neg (show ¬k = h by omega)]
      exact ih hp
    · next hge =>
      cases r with
      | some r => simp [Memory.read]
      | none =>
        by_cases hkh : k = h
        · subst hkh
          simpa using Memory.read_of_lt m k hk
        · simp only [hkh, if_false]
          refine Memory.read_of_lt _ _ fun x hx => ?_
          have hlt : h < k := by omega
          rcases List.mem_cons.mp hx with rfl | hx
          · exact hlt
          · exact hlt.trans (hk x hx)

/-- `Rec` of any other handle is unchanged. -/
theorem Memory.read_set_other (m : Memory) (h k : Nat) (r : Option Record) (hk : k ≠ h) :
    (m.set h r).read k = m.read k := by
  induction m with
  | nil => cases r <;> simp [Memory.set, Memory.read, hk.symm]
  | cons y m ih =>
    obtain ⟨j, v⟩ := y
    simp only [Memory.set]
    split
    · simp only [Memory.read, ih]
    · by_cases hj : j = h
      · subst hj
        cases r <;> simp [Memory.read, hk.symm]
      · cases r <;> simp [Memory.read, hj, hk.symm]

end Sys2Proof.Machine
end

