-- ==== Sys2Proof/Laws/Rps.lean ====
section
/-! SUPPORT. RPS: the walks with running state equal the lists of fields by index (41_rps.md). -/

namespace Sys2Proof.Machine

open Sys2Proof.Safety

/-- The preconditions answer `RPS_PRECOND` exactly where they do not hold (41_rps.md R142). -/
theorem rpsPrecond_eq (r : RpsRecord) :
    rpsPrecond r = if rpsPrecondHolds r then .ok () else .error .rpsPrecond := by
  unfold rpsPrecond rpsPrecondHolds
  cases r.interRps <;> cases r.ltEnabled <;>
    simp only [Bool.false_eq_true, true_and, false_and, if_false, false_imp_iff, true_imp_iff, and_true] <;>
    split_ifs <;> first | rfl | (exfalso; omega)

/-- The negative group by index (41_rps.md R147). -/
theorem rpsNegCodes_eq (es : List (Int × Bool)) (prev : Int) :
    rpsNegCodes prev es = ((List.range es.length).flatMap fun j =>
      [Field.ue ((if j = 0 then prev else (es.getD (j - 1) (0, false)).1) - (es.getD j (0, false)).1 - 1),
       .bit (es.getD j (0, false)).2]).map Field.code := by
  induction es generalizing prev with
  | nil => rfl
  | cons e es ih =>
    obtain ⟨d, u⟩ := e
    rw [rpsNegCodes, ih, List.length_cons, List.range_succ_eq_map, List.flatMap_cons, List.map_append,
      List.flatMap_map]
    simp only [List.map_cons, Field.code, List.map_nil, List.cons_append, List.nil_append, if_pos,
      List.getD_cons_zero]
    congr 3
    apply List.flatMap_congr
    intro j _
    cases j <;> simp

/-- The positive group by index (41_rps.md R148). -/
theorem rpsPosCodes_eq (es : List (Int × Bool)) (prev : Int) :
    rpsPosCodes prev es = ((List.range es.length).flatMap fun j =>
      [Field.ue ((es.getD j (0, false)).1 - (if j = 0 then prev else (es.getD (j - 1) (0, false)).1) - 1),
       .bit (es.getD j (0, false)).2]).map Field.code := by
  induction es generalizing prev with
  | nil => rfl
  | cons e es ih =>
    obtain ⟨d, u⟩ := e
    rw [rpsPosCodes, ih, List.length_cons, List.range_succ_eq_map, List.flatMap_cons, List.map_append,
      List.flatMap_map]
    simp only [List.map_cons, Field.code, List.map_nil, List.cons_append, List.nil_append, if_pos,
      List.getD_cons_zero]
    congr 3
    apply List.flatMap_congr
    intro j _
    cases j <;> simp

variable {r : RpsRecord}

/-- An entry of the record by index. -/
theorem rpsEntries_getD (hu : r.used.length = r.deltaPoc.length) (i : Nat) :
    (rpsEntries r).getD i (0, false) = (poc r i, r.used.getD i false) := by
  simp only [rpsEntries, poc, List.getD_eq_getElem?_getD]
  by_cases h : i < r.deltaPoc.length
  · simp [h, hu]
  · simp [h, hu]

/-- The record has as many entries as `deltaPoc`. -/
theorem rpsEntries_length (hu : r.used.length = r.deltaPoc.length) :
    (rpsEntries r).length = r.deltaPoc.length := by
  simp [rpsEntries, hu]

/-- The explicit form as fields (41_rps.md R146-R148). -/
theorem rpsExplicitCodes_eq (hu : r.used.length = r.deltaPoc.length) (hp : rpsPrecondHolds r) :
    rpsExplicitCodes r = (rpsExplicitFields r).map Field.code := by
  have hs := hp.1
  have e := rpsEntries_getD hu
  have l1 : ((rpsEntries r).take r.numNeg.toNat).length = r.numNeg.toNat := by
    rw [List.length_take, rpsEntries_length hu]
    omega
  have l2 : (((rpsEntries r).drop r.numNeg.toNat).take r.numPos.toNat).length = r.numPos.toNat := by
    rw [List.length_take, List.length_drop, rpsEntries_length hu]
    omega
  unfold rpsExplicitCodes rpsExplicitFields
  rw [rpsNegCodes_eq, rpsPosCodes_eq, l1, l2]
  simp only [List.map_append, List.map_cons, List.map_nil, Field.code]
  refine congrArg₂ (· ++ ·) (congrArg ([ue r.numNeg.toNat, ue r.numPos.toNat] ++ ·) ?_) ?_
  · refine congrArg (List.map Field.code) (List.flatMap_congr ?_)
    intro j hj
    rw [List.mem_range] at hj
    have g : ∀ i, i < r.numNeg.toNat →
        ((rpsEntries r).take r.numNeg.toNat).getD i (0, false) = (poc r i, r.used.getD i false) := by
      intro i hi
      rw [← e]
      simp [List.getD_eq_getElem?_getD, hi]
    rw [g j hj, g (j - 1) (by omega)]
  · refine congrArg (List.map Field.code) (List.flatMap_congr ?_)
    intro j hj
    rw [List.mem_range] at hj
    have g : ∀ i, i < r.numPos.toNat →
        (((rpsEntries r).drop r.numNeg.toNat).take r.numPos.toNat).getD i (0, false) =
          (poc r (r.numNeg.toNat + i), r.used.getD (r.numNeg.toNat + i) false) := by
      intro i hi
      rw [← e]
      simp [List.getD_eq_getElem?_getD, hi]
    rw [g j hj, g (j - 1) (by omega)]
    by_cases h : j = 0
    · simp [h]
    · simp [h, show r.numNeg.toNat + (j - 1) = r.numNeg.toNat + j - 1 by omega]

/-- The fields of one indicator (41_rps.md R145). -/
theorem concatCodes_refIdc (l : List RefIdc) :
    concatCodes (l.map refIdcCode) = concatCodes ((l.flatMap fun x =>
      match x with
      | .used => [Field.bit true]
      | .delta => [.bit false, .bit true]
      | .dropped => [.bit false, .bit false]).map Field.code) := by
  induction l with
  | nil => rfl
  | cons x l ih =>
    cases x <;>
      simp only [List.map_cons, List.flatMap_cons, List.map_append, List.map_nil, concatCodes_append, concatCodes,
        ih] <;> rfl

/-- The inter-RPS form as fields (41_rps.md R144, R145). -/
theorem concatCodes_rpsInter (r : RpsRecord) :
    concatCodes (rpsInterCodes r) = concatCodes ((rpsInterFields r).map Field.code) := by
  have e : rpsInterCodes r = ((rpsInterFields r).map Field.code).take 3 ++ r.refIdc.map refIdcCode := by
    simp [rpsInterCodes, rpsInterFields, Field.code]
  rw [e, concatCodes_append, concatCodes_refIdc]
  conv_rhs => rw [← List.take_append_drop 3 (List.map _ _), concatCodes_append]
  congr 1

/-- The cumulative LSB is this entry's LSB delta added to the one of the entry coded before (41_rps.md R152). -/
theorem ltCum_succ {i : Nat} (h : i < r.deltaPoc.length) : ltCum r i = ltLsb r i + ltCum r (i + 1) := by
  unfold ltCum
  rw [show r.deltaPoc.length - i = (r.deltaPoc.length - (i + 1)) + 1 by omega, List.range_succ_eq_map]
  simp only [List.map_cons, List.sum_cons, List.map_map, Nat.add_zero]
  congr 2
  apply List.map_congr_left
  intro j _
  simp [show i + (j + 1) = i + 1 + j by omega]

/-- The long-term walk from its `k`-th entry on, by index (41_rps.md R150-R157). -/
theorem rpsLtCodes_eq (hu : r.used.length = r.deltaPoc.length) (m k : Nat) (h : k + m ≤ r.deltaPoc.length) :
    rpsLtCodes r.maxPocLsb.toNat (decide (k = 0)) (if k = 0 then 0 else poc r (r.deltaPoc.length - k))
      (ltCum r (r.deltaPoc.length - k)) (((rpsEntries r).reverse.drop k).take m) =
    ((List.range m).flatMap fun j =>
      let i := r.deltaPoc.length - 1 - (k + j)
      [Field.ue (ltLsb r i)] ++
      (if 0 ≤ ltCycleOf r i then [.bit true, .ue (ltCycleOf r i)] else [.bit false]) ++
      [.bit (r.used.getD i false)]).map Field.code := by
  induction m generalizing k with
  | zero => simp [rpsLtCodes]
  | succ m ih =>
    have hk : k < (rpsEntries r).reverse.length := by
      rw [List.length_reverse, rpsEntries_length hu]
      omega
    have hx : (rpsEntries r).reverse[k] =
        (poc r (r.deltaPoc.length - 1 - k), r.used.getD (r.deltaPoc.length - 1 - k) false) := by
      rw [List.getElem_reverse, ← rpsEntries_getD hu]
      have h2 : (rpsEntries r).length - 1 - k = r.deltaPoc.length - 1 - k := by rw [rpsEntries_length hu]
      have h3 : r.deltaPoc.length - 1 - k < (rpsEntries r).length := by
        rw [rpsEntries_length hu]
        omega
      simp [List.getD_eq_getElem?_getD, h2, h3]
    rw [List.drop_eq_getElem_cons hk, List.take_succ_cons, hx, rpsLtCodes, List.range_succ_eq_map,
      List.flatMap_cons, List.map_append, List.flatMap_map]
    set n := r.deltaPoc.length with hn
    have hi : n - k = (n - 1 - k) + 1 := by omega
    have hlsb : ((r.maxPocLsb.toNat : Int) - poc r (n - 1 - k) + (if k = 0 then 0 else poc r (n - k))).tmod
        r.maxPocLsb.toNat = ltLsb r (n - 1 - k) := by
      unfold ltLsb
      rw [← hi, ← hn]
      by_cases h0 : k = 0
      · simp [h0]
      · rw [if_neg h0, if_neg (by omega)]
    have hcum : ltLsb r (n - 1 - k) + ltCum r (n - k) = ltCum r (n - 1 - k) := by
      rw [ltCum_succ (show n - 1 - k < _ by omega), ← hi]
    have hcyc : rpsCycle r.maxPocLsb.toNat (decide (k = 0)) (if k = 0 then 0 else poc r (n - k))
        (ltCum r (n - k)) (ltCum r (n - 1 - k)) (poc r (n - 1 - k)) = ltCycleOf r (n - 1 - k) := by
      unfold rpsCycle ltCycleOf
      rw [← hi, ← hn]
      by_cases h0 : k = 0
      · simp [h0]
      · simp only [h0, decide_false, if_false, Bool.false_eq_true, show ¬ (n - k = n) by omega]
        by_cases h1 : ltCum r (n - k) = ltCum r (n - 1 - k)
        · simp [h1]
        · rw [if_pos h1, if_neg (Ne.symm h1)]
    have ih' := ih (k + 1) (by omega)
    simp only [Nat.add_eq_zero_iff, one_ne_zero, and_false, decide_false, if_false] at ih'
    rw [show n - (k + 1) = n - 1 - k by omega] at ih'
    simp only [hlsb]
    rw [hcum, ih', hcyc]
    congr 1
    · simp only [Nat.add_zero, List.map_append, List.map_cons, List.map_nil, Field.code, rpsCycleCodes]
      split <;> rfl
    · congr 1
      apply List.flatMap_congr
      intro j _
      simp only [Nat.succ_eq_add_one, show k + 1 + j = k + (j + 1) by omega]

/-- The long-term part as fields (41_rps.md R149-R157). -/
theorem rpsLongTermCodes_eq (hu : r.used.length = r.deltaPoc.length) (hp : rpsPrecondHolds r)
    (hl : r.ltEnabled = true) : rpsLongTermCodes r = (rpsLongTermFields r).map Field.code := by
  have := rpsLtCodes_eq hu r.numLT.toNat 0 (by have := hp.1; omega)
  simp only [if_pos, decide_true, Nat.sub_zero, List.drop_zero] at this
  have hc : ltCum r r.deltaPoc.length = 0 := by simp [ltCum]
  rw [hc] at this
  rw [rpsLongTermCodes, hl, if_pos rfl, this]
  simp only [rpsLongTermFields, List.map_cons, Field.code, Nat.zero_add]

/-- `RPSBITS(r)` as fields (41_rps.md R158). -/
theorem rpsBits_eq (hu : r.used.length = r.deltaPoc.length) (hp : rpsPrecondHolds r) :
    rpsBits r = concatCodes ((.bit r.interRps ::
      (if r.interRps then rpsInterFields r else rpsExplicitFields r) ++
      (if r.ltEnabled then rpsLongTermFields r else [])).map Field.code) := by
  have e1 : concatCodes ([oneBit r.interRps] ++ if r.interRps = true then rpsInterCodes r else rpsExplicitCodes r) =
      concatCodes (Field.code (.bit r.interRps) ::
        (if r.interRps then rpsInterFields r else rpsExplicitFields r).map Field.code) := by
    rw [concatCodes_append, show ∀ a l, concatCodes (a :: l) = concatCodes ([a] ++ l) from fun _ _ => rfl,
      concatCodes_append]
    congr 1
    funext x
    congr 1
    cases r.interRps
    · simp [rpsExplicitCodes_eq hu hp]
    · simp [concatCodes_rpsInter]
  have e2 : rpsLongTermCodes r = (if r.ltEnabled then rpsLongTermFields r else []).map Field.code := by
    cases h : r.ltEnabled
    · simp [rpsLongTermCodes, h]
    · simp [rpsLongTermCodes_eq hu hp h]
  rw [rpsBits, concatCodes_append, e1, e2, ← concatCodes_append, List.map_append, List.map_cons]

/-- The answer of RPS with a well-shaped record whose preconditions hold, as fields (41_rps.md R160). -/
theorem codeOf_rps_fields {s : State} (hv : s.opa.valid = true)
    (hr : s.store.read s.opa.value.toNat = some (.rps r)) (hu : r.used.length = r.deltaPoc.length)
    (hp : rpsPrecondHolds r) :
    codeOf .rps s = concatCodes ((.bit r.interRps ::
      (if r.interRps then rpsInterFields r else rpsExplicitFields r) ++
      (if r.ltEnabled then rpsLongTermFields r else [])).map Field.code) := by
  rw [codeOf_rps hv hr hu, rpsPrecond_eq, if_pos hp]
  exact rpsBits_eq hu hp

end Sys2Proof.Machine
end

