-- ==== Sys2Proof/Laws/Sl.lean ====
section
/-! SUPPORT. SL: the lists as fields (44_scaling_list.md). -/

namespace Sys2Proof.Machine

open Sys2Proof.Safety

/-- The scan from the most recent index finds the last index that passes (44_scaling_list.md R211). -/
theorem lastBelow_eq (f : Nat → Bool) (l : Nat) : lastBelow f l = ((List.range l).filter f).getLast? := by
  induction l with
  | zero => rfl
  | succ l ih =>
    rw [lastBelow, List.range_succ, List.filter_append, ih]
    by_cases h : f l = true
    · simp [h]
    · simp [h]

/-- The match by the record's values (44_scaling_list.md R211). -/
theorem slMatches_eq (r : SlRecord) (cls : SlClass) (c j l : Nat) :
    slMatches r cls c j l =
      decide (coefOf r c j = coefOf r c l ∧ (cls.hasDc = true → dcOf r c j = dcOf r c l)) := by
  have e1 : List.map Int32.toInt (coefOf r c j) = List.map Int32.toInt (coefOf r c l) ↔
      coefOf r c j = coefOf r c l := by
    rw [List.map_inj_right]
    intro a b
    exact Int32.toInt_inj.mp
  have e2 : (dcOf r c j).toInt = (dcOf r c l).toInt ↔ dcOf r c j = dcOf r c l := Int32.toInt_inj
  unfold slMatches slCoef slDc
  simp only [coefOf, dcOf] at e1 e2
  rw [Bool.eq_iff_iff]
  simp only [e1, e2, Bool.and_eq_true, decide_eq_true_eq, Bool.or_eq_true, Bool.not_eq_true', coefOf, dcOf]
  cases cls.hasDc <;> simp

/-- The coefficient walk as fields (44_scaling_list.md R216). -/
theorem slWalkCodes_eq (vs : List Int) (pred : Int) :
    slWalkCodes pred vs = (slWalkFields pred vs).map Field.code := by
  induction vs generalizing pred with
  | nil => rfl
  | cons v vs ih =>
    rw [slWalkCodes, ih]
    simp only [slWalkFields, List.zip_cons_cons, List.map_cons, Field.code]
    rfl

/-- The coefficients in scan order by index (44_scaling_list.md R212). -/
theorem slScanned_eq {p : Params} (hp : paramsWf p) (r : SlRecord) {cls : SlClass} (hcls : cls ∈ p.slClasses)
    (c l : Nat) : slScanned cls (slCoef r c l) = scannedForm r cls c l := by
  have hl : cls.scan.length = cls.numCoef := by simpa using (hp.2 cls hcls).length_eq
  unfold slScanned scannedForm
  apply List.ext_getElem
  · simp [hl]
  · intro i h1 h2
    simp only [List.length_map, List.length_range] at h1 h2
    simp only [List.getElem_map, List.getElem_range, List.getD_eq_getElem _ _ h1, slCoef, coefOf]
    simp only [List.getD_eq_getElem?_getD, List.getElem?_map]
    generalize ((r.coef[c]?.getD [])[l]?.getD [])[cls.scan[i]]? = x
    cases x <;> simp

/-- One list as fields (44_scaling_list.md R211, R213-R216). -/
theorem slListCodes_eq {p : Params} (hp : paramsWf p) (r : SlRecord) {cls : SlClass} (hcls : cls ∈ p.slClasses)
    (c l : Nat) : slListCodes p r cls c l = (slListFields p r cls c l).map Field.code := by
  have hlast : lastBelow (fun j => slMatches r cls c j l) l = (slEarlierMatches r cls c l).getLast? := by
    rw [lastBelow_eq, slEarlierMatches]
    congr 2
    funext j
    exact slMatches_eq ..
  have hdc : slDc r c l = (dcOf r c l).toInt := rfl
  unfold slListCodes slListFields
  rw [hlast]
  cases (slEarlierMatches r cls c l).getLast? with
  | some j => simp [Field.code]
  | none =>
    unfold slDpcmCodes
    simp only [slScanned_eq hp r hcls]
    cases cls.hasDc with
    | false => simp [slWalkCodes_eq, Field.code]
    | true =>
      have hz : (dcOf r c l).toInt - 8 = -8 ↔ dcOf r c l = 0 := by
        rw [← Int32.toInt_inj]
        simp
      simp only [hdc, slDcOffset, if_true, List.map_append, hz]
      by_cases h : dcOf r c l = 0
      · simp [h, Field.code, oneBit]
      · simp [h, Field.code, oneBit, slWalkCodes_eq]

/-- `SLBITS(r)` as fields (44_scaling_list.md R210, R217). -/
theorem slBits_eq {p : Params} (hp : paramsWf p) (r : SlRecord) :
    slBits p r = concatCodes ((slFields p r).map Field.code) := by
  unfold slBits slFields
  congr 1
  rw [List.map_flatMap]
  have hz : p.slClasses.zipIdx = (List.range p.slClasses.length).map fun c =>
      (p.slClasses.getD c { numLists := 0, numCoef := 0, hasDc := false, scan := [] }, c) := by
    apply List.ext_getElem
    · simp
    · intro i h1 h2
      have : i < p.slClasses.length := by simpa using h1
      simp [this]
  rw [hz, List.flatMap_map]
  apply List.flatMap_congr
  intro c hc
  rw [List.mem_range] at hc
  have hm : p.slClasses.getD c { numLists := 0, numCoef := 0, hasDc := false, scan := [] } ∈ p.slClasses := by
    rw [List.getD_eq_getElem _ _ hc]
    exact List.getElem_mem hc
  simp only [List.map_flatMap]
  apply List.flatMap_congr
  intro l _
  exact slListCodes_eq hp r hm c l

end Sys2Proof.Machine
end

