-- ==== Sys2Proof/Laws/Step.lean ====
section
/-! SUPPORT. What one step can do, said once: the inversion every invariant is derived from; and how a run unrolls. -/

namespace Sys2Proof.Machine

/-- A command word at the head of the pending interactions is run next. -/
theorem step_of_command {s : State} {w : Word} {rest : List HostOp}
    (h : s.host = .write s.params.base 4 w :: rest) : step s = commandWrite w { s with host := rest } := by
  simp [step, h, hostStep, regAt, writeReg]

/-- A direct append by the host that fits. -/
theorem hostAppend_of_fits {s : State} {out : Bits} (h : s.sink.length + out.length ≤ sinkMaxBits) :
    hostAppend s out = .next (s.append out) := by
  unfold hostAppend State.pos
  rw [if_neg (by omega)]

/-- Everything a direct append by the host can do: it stops on the sink's counter (log entry 10), or appends. -/
theorem hostAppend_cases (s : State) (out : Bits) :
    (hostAppend s out = .fault .hostSinkOverflow ∧ sinkMaxBits < s.sink.length + out.length) ∨
    (hostAppend s out = .next (s.append out) ∧ s.sink.length + out.length ≤ sinkMaxBits) := by
  unfold hostAppend State.pos
  split
  · exact .inl ⟨rfl, ‹_›⟩
  · exact .inr ⟨rfl, by omega⟩

/-- Everything a step that answers a next state can have done: nothing, with no interaction pending; or one interaction,
taken off the front. -/
theorem step_cases {s t : State} (h : step s = .next t) :
    t = s ∨ ∃ op rest, s.host = op :: rest ∧
      ((∃ w opc r, op = .write s.params.base 4 w ∧ t = { s with host := rest }.complete opc r) ∨
       (∃ v, op = .write (s.params.base + 4) 4 v ∧ t = { s with host := rest, opa := Operand.written v }) ∨
       (∃ v, op = .write (s.params.base + 8) 4 v ∧ t = { s with host := rest, opb := Operand.written v }) ∨
       (∃ v, op = .write (s.params.base + 12) 4 v ∧ t = { s with host := rest }) ∨
       (∃ a z v d, op = .read a z ∧ t = { s with host := rest, reads := s.reads ++ [v], draws := d }) ∨
       (op = .reset ∧ t = { s with host := rest }.assertReset) ∨
       (∃ out, (op = .sinkAlignOne ∨ op = .sinkAlignZeros ∨ ∃ v n, op = .sinkWrite v n) ∧
          s.sink.length + out.length ≤ sinkMaxBits ∧ t = { s with host := rest, sink := s.sink ++ out }) ∨
       (∃ k r, op = .setRecord k r ∧ t = { s with host := rest, store := s.store.set k.toNat r })) := by
  unfold step at h
  split at h
  · cases h
    exact .inl rfl
  · next op rest hh =>
    right
    refine ⟨op, rest, hh, ?_⟩
    cases op <;> simp only [hostStep, hostAppend] at h
    case write addr size v =>
      split at h
      · cases h
      · next r hr =>
        rw [regAt_eq_some] at hr
        obtain ⟨rfl, hr⟩ := hr
        rcases hr with ⟨rfl, rfl⟩ | ⟨rfl, rfl⟩ | ⟨rfl, rfl⟩ | ⟨rfl, rfl⟩ <;>
          simp only [writeReg, commandWrite, exec_eq] at h
        · left
          split at h <;> cases h <;> exact ⟨v, _, _, rfl, rfl⟩
        all_goals
          cases h
          simp [State.writeOpa, State.writeOpb]
    case read =>
      split at h
      · cases h
      · next r hr =>
        cases h
        obtain ⟨v, d, e⟩ := State.readReg_eq { s with host := rest } r
        exact .inr (.inr (.inr (.inr (.inl ⟨_, _, v, d, rfl, e⟩))))
    case reset =>
      cases h
      simp
    case setRecord =>
      cases h
      simp
    all_goals
      split at h
      · cases h
      · first
        | (split at h; (· cases h))
        | skip
        cases h
        rename_i h'
        exact .inr (.inr (.inr (.inr (.inr (.inr (.inl ⟨_, by simp, by simpa [State.pos] using h', rfl⟩))))))

/-- A run goes on from the next state of its first step. -/
theorem run_of_step {s t : State} (k : Nat) (h : step s = .next t) :
    Host.Core.run Sys2Proof.core (k + 1) s = Host.Core.run Sys2Proof.core k t := by
  have : Sys2Proof.core.step s = .next t := h
  simp only [Host.Core.run, this]

/-- A run of one step is the step. -/
theorem run_one (s : State) : Host.Core.run Sys2Proof.core 1 s = step s := by
  simp only [Host.Core.run, Sys2Proof.core]
  cases step s <;> rfl

end Sys2Proof.Machine
end

