-- ==== Sys2Proof/Laws/Wp.lean ====
section
/-! SUPPORT. WP: the table as fields (43_weighted_pred.md). -/

namespace Sys2Proof.Machine

open Sys2Proof.Safety

/-- The coded sequence (43_weighted_pred.md R190). -/
theorem wpSequence_eq (r : WpRecord) :
    wpSequence r = if r.sliceType = .p ∧ r.mode = .combined then .error .wpPrecond else .ok (wpCoded r) := by
  unfold wpSequence wpCoded
  cases r.sliceType <;> cases r.mode <;> rfl

/-- The shift of a signed number is floor division (00_scope.md R9). -/
theorem asr_eq (a : Int) (k : Nat) : asr a k = a / 2 ^ k := by
  unfold asr
  rw [Int.fdiv_eq_ediv_of_nonneg]
  positivity

/-- One chroma component as fields (43_weighted_pred.md R195, R196). -/
theorem wpChromaComponent_eq (p : Params) (r : WpRecord) (w o : Int) :
    wpChromaComponent p r w o = (wpComponentFields p r w o).map Field.code := by
  simp [wpChromaComponent, wpComponentFields, Field.code, asr_eq, wpMidOf]

/-- One entry as fields (43_weighted_pred.md R193, R195). -/
theorem wpEntryCodes_eq (p : Params) (r : WpRecord) (e : WpEntry) :
    wpLumaCodes r e ++ wpChromaCodes p r e = (wpEntryFields p r e).map Field.code := by
  simp only [wpLumaCodes, wpChromaCodes, wpEntryFields, wpChromaComponent_eq, List.map_append]
  cases e.lumaPresent <;> cases e.chromaPresent <;> simp [Field.code, oneBit]

/-- The entries after the first as fields (43_weighted_pred.md R194). -/
theorem wpEntriesCodes_eq (p : Params) (r : WpRecord) (es : List WpEntry) :
    wpEntriesCodes p r true es = (es.flatMap (wpEntryFields p r)).map Field.code := by
  induction es with
  | nil => rfl
  | cons e es ih =>
    simp only [wpEntriesCodes, if_true, List.nil_append, ih, wpEntryCodes_eq, List.flatMap_cons, List.map_append]

/-- A table with entries as fields (43_weighted_pred.md R192-R197). -/
theorem wpTable_eq (p : Params) (r : WpRecord) (h : wpCoded r ≠ []) :
    wpEntriesCodes p r false (wpCoded r) = (wpFields p r).map Field.code := by
  unfold wpFields
  cases hc : wpCoded r with
  | nil => exact absurd hc h
  | cons e es =>
    simp only [wpEntriesCodes, wpEntriesCodes_eq, wpDenomCodes, List.flatMap_cons, List.map_append,
      Bool.false_eq_true, if_false, ← wpEntryCodes_eq]
    simp [Field.code]

end Sys2Proof.Machine
end

