-- ==== Sys2Proof/Tests/Slice0.lean ====
section
/-! SUPPORT. The model's own tests. Expected words are written out from 30_encoding.md R63; expected bits are the vectors of
95_test_vectors.md, or hand calculation from the rules where a comment says so. The theorems `witness_…` show, for each
obligation with hypotheses, a state and operands that meet them. -/

namespace Sys2Proof.Tests

open Sys2Proof.Machine Sys2Proof.Safety

/-! ### Helpers -/

/-- Bits from a list of digits. -/
def digits (l : List Nat) : Bits := l.map fun d => d == 1

/-- The reset state with pending host interactions. -/
def hosted (ops : List HostOp) : State := { State.reset with host := ops }

/-- The reset state with OPA written. -/
def withOpa (v : Word) : State := { State.reset with opa := { valid := true, value := v } }

/-- The reset state with OPA and OPB written. -/
def withOperands (a b : Word) : State := { withOpa a with opb := { valid := true, value := b } }

/-- The reset state with the record of handle 1 named by OPA. -/
def withRecord (r : Record) : State := { withOpa 1 with store := [(1, r)] }

/-- The sink after an outcome that is a next state without a fault. -/
def sinkOf : Host.Outcome State Machine.Fault Refusal → Option Bits
  | .next s => if s.status.fault then none else some s.sink
  | .fault _ => none
  | .refused _ => none

/-- STATUS after an outcome that is a next state. -/
def statusOf : Host.Outcome State Machine.Fault Refusal → Option Word
  | .next s => some s.status.word
  | .fault _ => none
  | .refused _ => none

/-- The host reads returned by an outcome that is a next state. -/
def readsOf : Host.Outcome State Machine.Fault Refusal → Option (List Word)
  | .next s => some s.reads
  | .fault _ => none
  | .refused _ => none

/-- An outcome is a next state. -/
def isNext : Host.Outcome State Machine.Fault Refusal → Bool
  | .next _ => true
  | .fault _ => false
  | .refused _ => false

def rpsEmpty : RpsRecord where
  currIdx := 0
  interRps := false
  deltaRIdx := 0
  deltaRps := 0
  refIdc := []
  numNeg := 0
  numPos := 0
  numLT := 0
  deltaPoc := []
  used := []
  ltEnabled := false
  maxPocLsb := 0

/-- `rps.expl` of 95_test_vectors.md. -/
def rpsExpl : RpsRecord :=
  { rpsEmpty with numNeg := 2, numPos := 1, deltaPoc := [-1, -3, 2], used := [true, false, true] }

/-- `rps.badorder` of 95_test_vectors.md. -/
def rpsBadOrder : RpsRecord := { rpsEmpty with numNeg := 2, deltaPoc := [-3, -1], used := [true, true] }

/-- `rps.inter` of 95_test_vectors.md. -/
def rpsInter : RpsRecord :=
  { rpsEmpty with currIdx := 3, interRps := true, deltaRIdx := 1, deltaRps := -1,
                  refIdc := [.used, .delta, .dropped, .used] }

/-- `rps.ltcorrA` of 95_test_vectors.md. -/
def rpsLtCorrA : RpsRecord :=
  { rpsEmpty with numLT := 2, deltaPoc := [-17, -15], used := [true, false], ltEnabled := true, maxPocLsb := 16 }

/-- `rps.ltcorrB` of 95_test_vectors.md. -/
def rpsLtCorrB : RpsRecord := { rpsLtCorrA with deltaPoc := [-16, -14] }

/-- `rps.ltneg` of 95_test_vectors.md. -/
def rpsLtNeg : RpsRecord := { rpsLtCorrA with deltaPoc := [30, -4] }

/-- A wavefront record. -/
def wavefront (l : List UInt32) : EpoRecord := { mode := .wavefront, tileAddr := [], substreamBits := l }

/-- A tile record. -/
def tiles (l : List UInt32) : EpoRecord := { mode := .tiles, tileAddr := l, substreamBits := [] }

def wpEntry0 : WpEntry where
  lumaPresent := false
  lumaWeight := 0
  lumaOffset := 0
  chromaPresent := false
  cbWeight := 0
  cbOffset := 0
  crWeight := 0
  crOffset := 0

/-- The record of the WP vectors of 95_test_vectors.md with one list 0. -/
def wpP (l : List WpEntry) : WpRecord where
  sliceType := .p
  mode := .explicit
  lumaLog2Denom := 6
  chromaLog2Denom := 6
  bitDepthC := 8
  l0 := l
  l1 := []
  lc := []

/-- The luma entry of `wp.p1`. -/
def wpLuma : WpEntry := { wpEntry0 with lumaPresent := true, lumaWeight := 70, lumaOffset := -3 }

/-- The entry of `wp.big`. -/
def wpBig : WpEntry := { wpEntry0 with lumaPresent := true, lumaWeight := -2147483648 }

/-- The entry of `wp.negw`. -/
def wpNegChroma : WpEntry := { wpEntry0 with chromaPresent := true, cbWeight := -3, crWeight := 4 }

/-- Two classes of the geometry: two 4x4 lists, and two lists with a DC term over the 4x4 scan. -/
def smallClasses : List SlClass :=
  [{ numLists := 2, numCoef := 16, hasDc := false, scan := scan16 },
   { numLists := 2, numCoef := 16, hasDc := true, scan := scan16 }]

/-- A state with that geometry and an SL record under handle 1. -/
def withSl (r : SlRecord) : State :=
  { withRecord (.sl r) with params := { defaultParams with slClasses := smallClasses } }

/-- A flat list of coefficients. -/
def flat (v : Int32) : List Int32 := List.replicate 16 v

/-- Two equal flat lists; then a sentinel list and one that differs from it in its DC alone. -/
def slSmall : SlRecord :=
  { coef := [[flat 16, flat 16], [flat 16, flat 16]], dc := [[], [0, 16]] }

/-- The same with a DC value outside the SVLC range. -/
def slBadDc : SlRecord := { slSmall with dc := [[], [0, -2147483648]] }

/-! ### WellFormed: the immediate is 6 bits (30_encoding.md R61) -/

theorem test_fixed_63_wellFormed : (Instr.fixed 63).wellFormed = true := by decide
theorem test_fixed_64_refused : (Instr.fixed 64).wellFormed = false := by decide
theorem test_egesc_63_wellFormed : (Instr.egesc 63).wellFormed = true := by decide
theorem test_egesc_64_refused : (Instr.egesc 64).wellFormed = false := by decide

/-! ### Decode: words written out from 30_encoding.md R63 -/

theorem test_decode_fixed : decode 0b00000000000000000000001100000001 = .ok (.fixed 3) := by decide
theorem test_decode_flag : decode 0b00000000000000000000000000000010 = .ok .flag := by decide
theorem test_decode_uvlc : decode 0b00000000000000000000000000000011 = .ok .uvlc := by decide
theorem test_decode_svlc : decode 0b00000000000000000000000000000100 = .ok .svlc := by decide
theorem test_decode_tu : decode 0b00000000000000000000000000000101 = .ok .tu := by decide
theorem test_decode_eglvl : decode 0b00000000000000000000000000000110 = .ok .eglvl := by decide
theorem test_decode_egesc : decode 0b00000000000000000001111100000111 = .ok (.egesc 31) := by decide
theorem test_decode_rps : decode 0b00000000000000000000000000010000 = .ok .rps := by decide
theorem test_decode_epo : decode 0b00000000000000000000000000010001 = .ok .epo := by decide
theorem test_decode_wp : decode 0b00000000000000000000000000010010 = .ok .wp := by decide
theorem test_decode_sl : decode 0b00000000000000000000000000010011 = .ok .sl := by decide
theorem test_decode_op00_refused : decode 0x00000000 = .error .unassignedOpcode := by decide
theorem test_decode_op08_refused : decode 0x00000008 = .error .unassignedOpcode := by decide
theorem test_decode_opFF_refused : decode 0x000000FF = .error .unassignedOpcode := by decide
theorem test_decode_rsvC0_refused : decode 0x00000103 = .error .reservedBits := by decide
theorem test_decode_rsvC0hi_refused : decode 0x80000002 = .error .reservedBits := by decide
theorem test_decode_rsvCN_refused : decode 0x00004001 = .error .reservedBits := by decide
theorem test_encode_fixed_4 : encode (.fixed 4) = 0x00000401 := by decide
theorem test_encode_egesc_1 : encode (.egesc 1) = 0x00000107 := by decide
theorem test_decodeTableWord : decodeTableWord 32 0x00002001 = some (.fixed 32) := by decide
theorem test_decodeTableWord_refused : decodeTableWord 32 0x00000014 = none := by decide

/-! ### One step from reset -/

/-- `d.unwA`: UVLC as the first interaction after reset. -/
theorem test_withFetchWord_runs : statusOf (step (State.reset.withFetchWord 32 0x00000003)) = some 0x00030201 := by decide
/-- `d.rsvprio`: a reserved bit outranks the unwritten operand. -/
theorem test_rsvprio : statusOf (step (State.reset.withFetchWord 32 0x00000103)) = some 0x00030101 := by decide
/-- With nothing pending the block holds its state. -/
theorem test_idle : step State.reset = .next State.reset := rfl
theorem test_write_opb : step (hosted [.write 0x8 4 7]) = .next { State.reset with opb := { valid := true, value := 7 } } := rfl
theorem test_read_cmd : readsOf (step (hosted [.read 0x0 4])) = some [0] := by decide
theorem test_read_status :
    readsOf (step { hosted [.read 0xC 4] with status := { fault := true, fcode := 0x0D, fopc := 0x03 } }) =
      some [0x00030D01] := by decide
theorem test_halfword_refused : step (hosted [.write 0x4 2 7]) = .refused .hostAccess := rfl
theorem test_unaligned_refused : step (hosted [.read 0x2 4]) = .refused .hostAccess := rfl
theorem test_past_window_refused : step (hosted [.read 0x10 4]) = .refused .hostAccess := rfl
theorem test_sinkWrite : sinkOf (step (hosted [.sinkWrite 0x1F3 4])) = some (digits [0, 0, 1, 1]) := by decide
theorem test_sinkWrite_33_refused : step (hosted [.sinkWrite 0 33]) = .refused .sinkWriteWidth := rfl
theorem test_alignZeros :
    sinkOf (step { hosted [.sinkAlignZeros] with sink := digits [1, 1, 1] }) =
      some (digits [1, 1, 1, 0, 0, 0, 0, 0]) := by decide
theorem test_alignZeros_none :
    sinkOf (step { hosted [.sinkAlignZeros] with sink := digits [1, 1, 1, 1, 1, 1, 1, 1] }) =
      some (digits [1, 1, 1, 1, 1, 1, 1, 1]) := by decide

/-! ### The commands, one step each (95_test_vectors.md) -/

theorem test_fixed : sinkOf (exec (.fixed 4) (withOpa 0x1F3)) = some (digits [0, 0, 1, 1]) := by decide
theorem test_fixed_33 : statusOf (exec (.fixed 33) (withOpa 1)) = some 0x00010401 := by decide
theorem test_flag : sinkOf (exec .flag (withOpa 3)) = some (digits [1]) := by decide
theorem test_flag_even : sinkOf (exec .flag (withOpa 0xFFFFFFFE)) = some (digits [0]) := by decide
theorem test_uvlc : sinkOf (exec .uvlc (withOpa 7)) = some (digits [0, 0, 0, 1, 0, 0, 0]) := by decide
theorem test_uvlc_range : statusOf (exec .uvlc (withOpa 0xFFFFFFFF)) = some 0x00030501 := by decide
theorem test_svlc : sinkOf (exec .svlc (withOpa 0xFFFFFFF8)) = some (digits [0, 0, 0, 0, 1, 0, 0, 0, 1]) := by decide
theorem test_svlc_range : statusOf (exec .svlc (withOpa 0x80000000)) = some 0x00040601 := by decide
theorem test_tu : sinkOf (exec .tu (withOperands 3 5)) = some (digits [1, 1, 1, 0]) := by decide
theorem test_tu_full : sinkOf (exec .tu (withOperands 5 5)) = some (digits [1, 1, 1, 1, 1]) := by decide
theorem test_eglvl_12 :
    sinkOf (exec .eglvl (withOpa 12)) = some (digits [1, 1, 1, 1, 1, 1, 1, 1, 1, 1, 1, 1, 0]) := by decide
theorem test_eglvl_14 :
    sinkOf (exec .eglvl (withOpa 14)) =
      some (digits [1, 1, 1, 1, 1, 1, 1, 1, 1, 1, 1, 1, 1, 1, 0, 0]) := by decide
theorem test_egesc : sinkOf (exec (.egesc 2) (withOpa 11)) = some (digits [1, 0, 1, 1, 1]) := by decide
theorem test_egesc_range : statusOf (exec (.egesc 31) (withOpa 2147483648)) = some 0x00070801 := by decide
theorem test_rps_expl :
    sinkOf (exec .rps (withRecord (.rps rpsExpl))) =
      some (digits [0, 0, 1, 1, 0, 1, 0, 1, 1, 0, 1, 0, 0, 0, 1, 0, 1]) := by decide
theorem test_rps_ltcorrA :
    sinkOf (exec .rps (withRecord (.rps rpsLtCorrA))) =
      some (digits [0, 1, 1, 0, 1, 1, 0, 0, 0, 0, 1, 0, 0, 0, 0, 0, 0, 0, 1, 1, 0, 1]) := by decide
theorem test_epo_w3b100 :
    (sinkOf (exec .epo { withRecord (.epo (wavefront [40, 16, 24])) with sink := List.replicate 100 false })).map
      (List.drop 100) =
      some (digits [0, 0, 1, 0, 0, 0, 0, 1, 0, 1, 1, 0, 1, 1, 0, 0, 0, 0, 1, 0, 0, 0, 0, 1, 1]) := by decide
theorem test_epo_tdec : statusOf (exec .epo (withRecord (.epo (tiles [100, 50])))) = some 0x00110B01 := by decide
theorem test_wp_p1 :
    sinkOf (exec .wp (withRecord (.wp (wpP [wpLuma])))) =
      some (digits [0, 0, 1, 1, 1, 1, 1, 0, 0, 0, 1, 1, 0, 0, 0, 0, 1, 1, 1, 0]) := by decide
/-- `wp.negw`: the shift of a negative product rounds down. -/
theorem test_wp_negw :
    sinkOf (exec .wp (withRecord (.wp { wpP [wpNegChroma] with chromaLog2Denom := 2 }))) =
      some (digits [0, 0, 1, 1, 1, 0, 0, 0, 1, 0, 0, 1, 0, 1, 0, 0, 0, 1, 1, 1, 1, 0, 0, 0, 0, 0, 0, 0, 0, 1, 1, 1, 0,
        0, 0, 0, 0, 1, 1, 1]) := by decide
/-- Hand calculation from 44_scaling_list.md: class 0 as in `sl.flat16` (`1`, `SE(8)`, fifteen `SE(0)`, then `0 1`); the
DC class codes the sentinel of `sl.sentinel` (`1`, `SE(-8)`), then `1`, `SE(16 - 8)` and sixteen `SE(0)`. -/
theorem test_sl_small :
    sinkOf (exec .sl (withSl slSmall)) =
      some (digits ([1, 0, 0, 0, 0, 1, 0, 0, 0, 0] ++ [1, 1, 1, 1, 1, 1, 1, 1, 1, 1, 1, 1, 1, 1, 1] ++ [0, 1] ++
        [1, 0, 0, 0, 0, 1, 0, 0, 0, 1] ++ [1, 0, 0, 0, 0, 1, 0, 0, 0, 0] ++
        [1, 1, 1, 1, 1, 1, 1, 1, 1, 1, 1, 1, 1, 1, 1, 1])) := by decide
theorem test_sl_dcrange : statusOf (exec .sl (withSl slBadDc)) = some 0x00130601 := by decide

/-! ### The assembly text (30_encoding.md R80, R81) -/

theorem test_parse_wr : parseLine ['w', 'r', ' ', 'o', 'p', 'a', ',', ' ', '-', '8'] = some [.wrOpa 0xFFFFFFF8] := by decide
theorem test_parse_hex_comment :
    parseLine ['f', 'i', 'x', 'e', 'd', ' ', '0', 'x', '2', '0', ' ', ';', ' ', 'n'] = some [.command (.fixed 32)] := by
  decide
theorem test_parse_imm6_refused : parseLine ['e', 'g', 'e', 's', 'c', ' ', '6', '4'] = none := by decide
theorem test_parse_put_u :
    parseLine ['p', 'u', 't', '.', 'u', ' ', '5', ',', '3'] = some [.wrOpa 5, .command (.fixed 3)] := by decide

/-! ### Witnesses: a state and operands that meet the hypotheses of each obligation, clause by clause -/

theorem witness_DecodeOfEncode : (Instr.fixed 63).wellFormed = true ∧ (Instr.egesc 0).wellFormed = true ∧
    Instr.sl.wellFormed = true := by decide
theorem witness_EncodeOfDecode : decode 0x00003F07 = .ok (.egesc 63) := by decide
theorem witness_WordSelectsItsRow : (0x00003F01 : Word) &&& (row (.fixed 63)).2 = (row (.fixed 63)).1 ∧
    (0x00003F01 : Word) &&& (row (.fixed 0)).2 = (row (.fixed 0)).1 := by decide

/-- The pending interactions of a state that is about to serve one. -/
def faultedHosted (op : HostOp) : State :=
  { hosted [op] with status := { fault := true, fcode := 0x05, fopc := 0x03 } }

theorem witness_StepRunsTheDecodedCommand :
    (hosted [.write 0 4 0x00003F01]).host = .write (hosted [.write 0 4 0x00003F01]).params.base 4 0x00003F01 :: [] ∧
    decode 0x00003F01 = .ok (.fixed 63) := by decide
/-- Unassigned opcodes at the ends of the gaps, a reserved bit of format C0 and one of format CN. -/
theorem witness_IllegalWordRaisesIllegalCommand :
    (hosted [.write 0 4 0x14]).host = .write (hosted [.write 0 4 0x14]).params.base 4 0x14 :: [] ∧
    (hosted [.write 0 4 0x14]).status.fault = false ∧
    ((0x00 : Word).toNat % 256 ∉ assignedOpcodes ∧ (0x08 : Word).toNat % 256 ∉ assignedOpcodes ∧
      (0x0F : Word).toNat % 256 ∉ assignedOpcodes ∧ (0x14 : Word).toNat % 256 ∉ assignedOpcodes ∧
      (0xFF : Word).toNat % 256 ∉ assignedOpcodes) ∧
    ((0x103 : Word).toNat % 256 ≠ 0x01 ∧ (0x103 : Word).toNat % 256 ≠ 0x07 ∧ (0x103 : Word).toNat / 256 ≠ 0) ∧
    (0x4001 : Word).toNat / 2 ^ 14 ≠ 0 := by decide
theorem witness_StepKeepsInvariant :
    Inv (withSl slSmall) ∧ step (withSl slSmall) = .next (withSl slSmall) := ⟨by decide, rfl⟩
theorem witness_ResetClearsValidBitsAndStatus :
    (faultedHosted .reset).host = .reset :: [] ∧ (faultedHosted .reset).status.fault = true ∧
    step (faultedHosted .reset) = .next { faultedHosted .reset with host := [] }.assertReset ∧
    ({ faultedHosted .reset with host := [] }.assertReset).status.fault = false := ⟨rfl, rfl, rfl, rfl⟩
theorem witness_CommandAppendsOrFaults : (withOpa 7).status.fault = false := by decide
theorem witness_FaultedBlockIgnoresCommands :
    (faultedHosted .reset).status.fault = true ∧
    (faultedHosted (.write 0 4 0x14)).host = .write (faultedHosted (.write 0 4 0x14)).params.base 4 0x14 :: [] ∧
    (faultedHosted (.write 4 4 7)).host = .write ((faultedHosted (.write 4 4 7)).params.base + 4) 4 7 :: [] ∧
    (faultedHosted (.write 8 4 7)).host = .write ((faultedHosted (.write 8 4 7)).params.base + 8) 4 7 :: [] ∧
    (faultedHosted (.read 12 4)).host = .read ((faultedHosted (.read 12 4)).params.base + 12) 4 :: [] := by decide
/-- A faulted state that reset clears, and a clear state that an illegal word faults. -/
theorem witness_OnlyResetClearsFault :
    (step (faultedHosted .reset) = .next { faultedHosted .reset with host := [] }.assertReset ∧
      ({ faultedHosted .reset with host := [] }.assertReset).status ≠ (faultedHosted .reset).status) ∧
    statusOf (step (hosted [.write 0 4 0x14])) = some 0x00140101 := ⟨⟨rfl, by decide⟩, by decide⟩
theorem witness_OperandsPersist :
    (step (hosted [.write 4 4 7]) = .next (withOpa 7) ∧ (withOpa 7).opa ≠ (hosted [.write 4 4 7]).opa) ∧
    (step { withOpa 1 with host := [.write 8 4 7] } = .next (withOperands 1 7) ∧
      (withOperands 1 7).opb ≠ (withOpa 1).opb) ∧
    isNext (step { withOpa 7 with host := [.write 0 4 0x03] }) = true := ⟨⟨rfl, by decide⟩, ⟨rfl, by decide⟩, by decide⟩
/-- `v.32m1` of 95_test_vectors.md: `UVLC` out of range, with a store whose entry-point record is small. -/
theorem witness_CommandRaisesOnlyItsFaults :
    (withOpa 0xFFFFFFFF).status.fault = false ∧
    (∀ h r, (withOpa 0xFFFFFFFF).store.read h = some (.epo r) →
      r.tileAddr.length ≤ 2 ^ 32 - 2 ∧ r.substreamBits.length ≤ 2 ^ 32 - 2) ∧
    (∀ c ∈ (withOpa 0xFFFFFFFF).params.slClasses, c.numLists < 2 ^ 32) ∧
    (∃ t, exec .uvlc (withOpa 0xFFFFFFFF) = .next t ∧ t.status.fault = true) :=
  ⟨rfl, fun h r e => by simp [withOpa, State.reset, Memory.read] at e, by decide, _, rfl, by decide⟩
theorem witness_StepNeverRewritesHistory :
    step (hosted [.setRecord 1 (some (.rps rpsEmpty))]) =
      .next { State.reset with store := [(1, .rps rpsEmpty)] } ∧
    { State.reset with store := [(1, .rps rpsEmpty)] }.store ≠ State.reset.store := ⟨rfl, by decide⟩
/-- Two interactions of a faulted block: an ignored command, and a read of STATUS. -/
theorem witness_FaultedRunEmitsNothingMore :
    let s := { faultedHosted .reset with host := [.write 0 4 0x03, .read 12 4, .setRecord 1 none] }
    s.status.fault = true ∧
    (∀ op ∈ s.host, (∃ a z v, op = .write a z v) ∨ (∃ a z, op = .read a z) ∨ ∃ h r, op = .setRecord h r) ∧
    Host.Core.run Sys2Proof.core 2 s =
      .next { s with host := [.setRecord 1 none], reads := [s.status.word] } := by
  refine ⟨rfl, ?_, rfl⟩
  intro op h
  simp only [List.mem_cons, List.not_mem_nil, or_false] at h
  rcases h with rfl | rfl | rfl
  · exact .inl ⟨_, _, _, rfl⟩
  · exact .inr (.inl ⟨_, _, rfl⟩)
  · exact .inr (.inr ⟨_, _, rfl⟩)
/-- An output on the empty sink, and a fault on it. -/
theorem witness_OnlyEpoDependsOnThePosition :
    (Instr.flag ≠ .epo ∧ (withOpa 1).status.fault = false ∧
      exec .flag { withOpa 1 with sink := [] } = .next { withOpa 1 with sink := [true] }) ∧
    (exec .uvlc { withOpa 0xFFFFFFFF with sink := [] } =
      .next (faultState { withOpa 0xFFFFFFFF with sink := [] } .uvlc 0x05)) := ⟨⟨by decide, rfl, rfl⟩, rfl⟩
/-- Two reset states with different operand values, neither written. -/
theorem witness_UnwrittenOperandValueIsInvisible :
    sameButUnwritten State.reset { State.reset with opa := { valid := false, value := 1 } } :=
  ⟨⟨rfl, nofun⟩, ⟨rfl, nofun⟩, rfl⟩
theorem witness_UnwrittenOpaRaises : State.reset.status.fault = false ∧ State.reset.opa.valid = false := by decide
/-- A TU, for the first clause, and a FLAG. -/
theorem witness_OnlyTuReadsOpb :
    exec .tu (withOperands 1 1) = .next { withOperands 1 1 with sink := [true] } ∧
    Instr.flag ≠ .tu ∧ exec .flag (withOpa 1) = .next { withOpa 1 with sink := [true] } := ⟨rfl, by decide, rfl⟩
/-- No record; a record of another kind; ill-shaped records. -/
theorem witness_BadDescriptorRaises :
    (Ready (withOpa 1) ∧ badDescriptorFor (withOpa 1).params .rps ((withOpa 1).store.read 1) ∧
      badDescriptorFor (withOpa 1).params .epo ((withOpa 1).store.read 1)) ∧
    badDescriptorFor defaultParams .rps (some (.rps { rpsEmpty with used := [true] })) ∧
    badDescriptorFor defaultParams .wp (some (.rps rpsEmpty)) ∧
    badDescriptorFor defaultParams .sl (some (.sl { coef := [], dc := [] })) := by
  refine ⟨⟨by decide, ?_, ?_⟩, ?_, ?_, ?_⟩
  · intro r h; simp [withOpa, State.reset, Memory.read] at h
  · intro r h; simp [withOpa, State.reset, Memory.read] at h
  · intro r h
    injection h with h; injection h with h
    subst h; decide
  · intro r h; simp at h
  · intro r h
    injection h with h; injection h with h
    subst h
    exact fun hs => absurd hs.1 (by decide)

/-- OPA written, and a sink of `n` bits. -/
def fullSink (n : Nat) : State := { withOpa 1 with sink := List.replicate n false }

theorem fullSink_length (n : Nat) : (fullSink n).sink.length = n := by simp [fullSink]

/-- The two cases of `Outputs`: the output fits an empty sink, and no bit fits a full one. -/
theorem witness_Outputs :
    ((withOpa 1).sink.length + [true].length ≤ 2 ^ 32 - 1) ∧
    ∃ s : State, Ready s ∧ 2 ^ 32 - 1 < s.sink.length + [true].length :=
  ⟨by decide, fullSink (2 ^ 32 - 1), ⟨rfl, rfl⟩, by rw [fullSink_length]; decide⟩
theorem witness_FixedAppendsLowBits :
    Ready (withOpa 5) ∧ (1 ≤ 1 ∧ 1 ≤ 32) ∧ (1 ≤ 32 ∧ 32 ≤ 32) ∧ (33 = 0 ∨ 32 < 33) ∧ (0 = 0 ∨ 32 < 0) ∧
    (63 < 64 ∧ (63 = 0 ∨ 32 < 63)) := by decide
theorem witness_FlagAppendsBitZero : Ready (withOpa 0xFFFFFFFE) := by decide
theorem witness_UvlcAppendsExpGolomb :
    (Ready (withOpa 0xFFFFFFFE) ∧ (withOpa 0xFFFFFFFE).opa.value ≠ 0xFFFFFFFF) ∧
    (Ready (withOpa 0xFFFFFFFF) ∧ (withOpa 0xFFFFFFFF).opa.value = 0xFFFFFFFF) ∧
    ((0 : Int) ≤ 0 ∧ (0 : Int) ≤ 2 ^ 32 - 2) ∧ ((2 : Int) ^ 32 - 2 < 2 ^ 32 - 1) ∧ ((-1 : Int) < 0) := by decide
theorem witness_SvlcAppendsSignedExpGolomb :
    (Ready (withOpa 0x80000001) ∧ (withOpa 0x80000001).opa.value ≠ 0x80000000) ∧
    (Ready (withOpa 0x80000000) ∧ (withOpa 0x80000000).opa.value = 0x80000000) ∧
    (-(2 ^ 31 - 1) ≤ (2 ^ 31 - 1 : Int)) ∧ (-(2 ^ 31) < (-(2 ^ 31 - 1) : Int)) ∧ ((2 ^ 31 - 1 : Int) < 2 ^ 31) := by decide
theorem witness_TuAppendsTruncatedUnary :
    ((withOpa 5).status.fault = false ∧ (withOpa 5).opb.valid = false) ∧
    (Ready (withOperands 9 0) ∧ (withOperands 9 0).opb.valid = true ∧ (withOperands 9 0).opb.value.toNat = 0) ∧
    (0 < (withOperands 4 5).opb.value.toNat ∧
      (withOperands 4 5).opa.value.toNat < (withOperands 4 5).opb.value.toNat) ∧
    (0 < (withOperands 5 5).opb.value.toNat ∧
      (withOperands 5 5).opa.value.toNat = (withOperands 5 5).opb.value.toNat) ∧
    (0 < (withOperands 6 5).opb.value.toNat ∧
      (withOperands 6 5).opb.value.toNat < (withOperands 6 5).opa.value.toNat) := by decide
theorem witness_EglvlAppendsLevelCode :
    Ready (withOpa 12) ∧ (withOpa 12).opa.value.toNat < 13 ∧ Ready (withOpa 13) ∧
    13 ≤ (withOpa 13).opa.value.toNat := by decide
theorem witness_EgescAppendsEscapedCode :
    Ready (withOpa 0x7FFFFFFF) ∧ (31 ≤ 31 ∧ (withOpa 0x7FFFFFFF).opa.value.toNat < 2 ^ 32 - 2 ^ 31) ∧
    (31 < 32 ∨ 2 ^ 32 - 2 ^ 32 ≤ 0) ∧ 2 ^ 32 - 2 ^ 31 ≤ (withOpa 0x80000000).opa.value.toNat := by decide
theorem witness_EscapedCodeClosedForm : 31 ≤ 31 ∧ 2 ^ 31 - 1 < 2 ^ 32 - 2 ^ 31 ∧ 2 ^ 32 - 2 < 2 ^ 32 - 2 ^ 0 := by decide
theorem witness_ExpGolombRoundTrips :
    ue 7 = .ok (digits [0, 0, 0, 1, 0, 0, 0]) ∧ se (-8) = .ok (digits [0, 0, 0, 0, 1, 0, 0, 0, 1]) := by decide
theorem witness_EscapedAndUnaryCodesArePrefixFree :
    (egk 11 2 = .ok (digits [1, 0, 1, 1, 1]) ∧ digits [1, 0, 1, 1, 1] <+: digits [1, 0, 1, 1, 1]) ∧
    (0 < 5 ∧ truncatedUnary 3 5 = .ok (digits [1, 1, 1, 0]) ∧
      digits [1, 1, 1, 0] <+: digits [1, 1, 1, 0]) := by decide

/-- OPA names the record. -/
theorem withRecord_names (r : Record) :
    Ready (withRecord r) ∧ (withRecord r).store.read (withRecord r).opa.value.toNat = some r := ⟨⟨rfl, rfl⟩, rfl⟩

/-- A broken count invariant, a reference index of 0, one beyond `currIdx`, a zero modulus. -/
theorem witness_RpsPreconditionRaises :
    (rpsExpl.used.length = rpsExpl.deltaPoc.length ∧ ¬rpsPrecondHolds { rpsExpl with numNeg := 3 }) ∧
    ¬rpsPrecondHolds { rpsInter with deltaRIdx := 0 } ∧ ¬rpsPrecondHolds { rpsInter with deltaRIdx := 4 } ∧
    ¬rpsPrecondHolds { rpsLtCorrA with maxPocLsb := 0 } := by decide
/-- In range, and a gap out of range. -/
theorem witness_RpsExplicitForm :
    (rpsExpl.used.length = rpsExpl.deltaPoc.length ∧ rpsPrecondHolds rpsExpl ∧ rpsExpl.interRps = false ∧
      rpsExpl.ltEnabled = false ∧ (Field.bit false :: rpsExplicitFields rpsExpl).all Field.inRange = true) ∧
    (rpsBadOrder.used.length = rpsBadOrder.deltaPoc.length ∧ rpsPrecondHolds rpsBadOrder ∧
      rpsBadOrder.interRps = false ∧ rpsBadOrder.ltEnabled = false ∧
      Field.bit false :: rpsExplicitFields rpsBadOrder =
        [.bit false, .ue 2, .ue 0, .ue 2, .bit true] ++ .ue (-3) :: [.bit true] ∧
      [Field.bit false, .ue 2, .ue 0, .ue 2, .bit true].all Field.inRange = true ∧
      (Field.ue (-3)).inRange = false) := by decide
/-- The last legal reference index, and `deltaRps = 0`. -/
theorem witness_RpsInterForm :
    (rpsInter.used.length = rpsInter.deltaPoc.length ∧ rpsPrecondHolds { rpsInter with deltaRIdx := 3 } ∧
      rpsInter.interRps = true ∧ rpsInter.ltEnabled = false ∧ rpsInter.deltaRps ≠ 0) ∧
    (rpsPrecondHolds { rpsInter with deltaRps := 0 } ∧ ({ rpsInter with deltaRps := 0 }).deltaRps = 0) := by decide
/-- Both corrections of R154 in range, and an LSB delta out of range. -/
theorem witness_RpsLongTermPart :
    (rpsLtCorrA.used.length = rpsLtCorrA.deltaPoc.length ∧ rpsPrecondHolds rpsLtCorrA ∧ rpsLtCorrA.ltEnabled = true ∧
      (ltCum rpsLtCorrA 1 = 15 ∧ ltCum rpsLtCorrA 0 = 17) ∧
      (Field.bit false :: rpsExplicitFields rpsLtCorrA ++ rpsLongTermFields rpsLtCorrA).all Field.inRange = true) ∧
    (rpsLtCorrB.used.length = rpsLtCorrB.deltaPoc.length ∧ rpsPrecondHolds rpsLtCorrB ∧
      rpsLtCorrB.ltEnabled = true ∧ (ltCum rpsLtCorrB 1 = 14 ∧ ltCum rpsLtCorrB 0 = 16) ∧
      (Field.bit false :: rpsExplicitFields rpsLtCorrB ++ rpsLongTermFields rpsLtCorrB).all Field.inRange = true) ∧
    (rpsLtNeg.used.length = rpsLtNeg.deltaPoc.length ∧ rpsPrecondHolds rpsLtNeg ∧ rpsLtNeg.ltEnabled = true ∧
      (Field.bit false :: rpsExplicitFields rpsLtNeg ++ rpsLongTermFields rpsLtNeg).all Field.inRange = false) := by decide

theorem witness_EpoNoneEmitsNothing :
    ({ mode := .none, tileAddr := [5], substreamBits := [] } : EpoRecord).mode = .none ∧
    (withRecord (.epo { mode := .none, tileAddr := [5], substreamBits := [] })).sink.length ≤ 2 ^ 32 - 1 := by decide
/-- Decreasing tiles; a width of 33; no entry; a width of 0 with an entry (both margins 0); a corrected first offset of
`2^w`, and one of `2^w - 1`, which fits; the table of `epo.w3`. -/
theorem witness_EpoTableForm :
    ((tiles [100, 50]).mode = .tiles ∧ tilesDecrease (tiles [100, 50])) ∧
    (epoOffsetsForm (tiles [0xFFFFFFFF]) = [0xFFFFFFFF] ∧ 2 ^ 32 ≤ 0xFFFFFFFF + (0 + 16) / 8 + 10 ∧
      0xFFFFFFFF + (0 + 16) / 8 + 10 < 2 ^ 33) ∧
    (epoOffsetsForm (wavefront [0, 0]) = [] ∧ 2 ^ 3 ≤ 0 + (0 + 16) / 8 + 10 ∧ 0 + (0 + 16) / 8 + 10 < 2 ^ 4) ∧
    (epoOffsetsForm (wavefront [4]) = [0] ∧ 0 + (0 + 0) / 8 + 0 < 2 ^ 0) ∧
    (epoOffsetsForm (tiles (List.replicate 20 3)) = 3 :: List.replicate 19 0 ∧ 2 ^ 3 ≤ 3 + (0 + 16) / 8 + 10 ∧
      3 + (0 + 16) / 8 + 10 < 2 ^ 4 ∧ 3 + (0 + (9 + 5) + 16 + 20 * 4) / 8 = 2 ^ 4) ∧
    (epoOffsetsForm (tiles (List.replicate 20 2)) = 2 :: List.replicate 19 0 ∧ 2 ^ 3 ≤ 2 + (0 + 16) / 8 + 10 ∧
      2 + (0 + 16) / 8 + 10 < 2 ^ 4 ∧ 2 + (0 + (9 + 5) + 16 + 20 * 4) / 8 = 2 ^ 4 - 1) ∧
    (epoOffsetsForm (wavefront [40, 16, 24]) = [5, 2, 3] ∧ 2 ^ 4 ≤ 5 + (0 + 16) / 8 + 10 ∧
      5 + (0 + 16) / 8 + 10 < 2 ^ 5 ∧ 5 + (0 + (5 + 5) + 16 + 3 * 5) / 8 < 2 ^ 5) :=
  ⟨⟨rfl, 1, by decide⟩, by decide, by decide, by decide, by decide, by decide, by decide⟩

/-- The offsets of `n` substreams of one byte. -/
theorem epoOffsetsForm_ones (n : Nat) : epoOffsetsForm (wavefront (List.replicate n 8)) = List.replicate n 1 := by
  have h : (List.replicate n 8).rdropWhile (fun m : Nat => decide (m = 0)) = List.replicate n 8 := by
    rw [List.rdropWhile_eq_self_iff]
    intro hl
    simp
  simp [epoOffsetsForm, wavefront, show UInt32.toNat 8 = 8 from rfl, h]

/-- The largest of them. -/
theorem foldr_max_ones (n : Nat) : (List.replicate n 1).foldr max 0 ≤ 1 := by
  induction n with
  | zero => decide
  | succ n ih => rw [List.replicate_succ, List.foldr_cons]; omega

/-- One substream more than `UVLC_MAX`. -/
theorem witness_EpoCountBeyondUvlcRaises :
    let r := wavefront (List.replicate (2 ^ 32 - 1) 8)
    let s := withRecord (.epo r)
    Ready s ∧ s.store.read s.opa.value.toNat = some (.epo r) ∧ r.mode ≠ .none ∧
    ¬(r.mode = .tiles ∧ tilesDecrease r) ∧ 2 ^ 32 - 2 < (epoOffsetsForm r).length ∧
    (epoOffsetsForm r).foldr max 0 + (s.sink.length + s.params.nalHdrBits) / 8 + s.params.epoSlackBytes < 2 ^ 32 := by
  intro r s
  have h1 : r.mode = .wavefront := rfl
  have h2 : epoOffsetsForm r = List.replicate (2 ^ 32 - 1) 1 := epoOffsetsForm_ones _
  have h3 : ∀ r, ((withRecord r).sink.length + (withRecord r).params.nalHdrBits) / 8 +
      (withRecord r).params.epoSlackBytes = 12 := by simp [withRecord, withOpa, State.reset, defaultParams]
  refine ⟨(withRecord_names _).1, (withRecord_names _).2, ?_, ?_, ?_, ?_⟩
  · rw [h1]; decide
  · rw [h1]; rintro ⟨h, -⟩; cases h
  · rw [h2, List.length_replicate]; decide
  · rw [h2, Nat.add_assoc, h3 (.epo r)]
    exact Nat.lt_of_le_of_lt (Nat.add_le_add_right (foldr_max_ones _) 12) (by decide)
theorem witness_EpoTrailingZerosChangeNothing :
    let r := wavefront [40, 16]
    let s := withRecord (.epo r)
    let t := { s with store := [(1, .epo { r with substreamBits := r.substreamBits ++ List.replicate 2 0 })] }
    s.store.read s.opa.value.toNat = some (.epo r) ∧ r.mode = .wavefront ∧ t = { s with store := t.store } ∧
    t.store.read s.opa.value.toNat =
      some (.epo { r with substreamBits := r.substreamBits ++ List.replicate 2 0 }) ∧
    isNext (exec .epo s) = true ∧ isNext (exec .epo t) = true := by decide

/-- Depths just outside [1, 16]. -/
theorem witness_WpPreconditionRaises :
    wpCoded { wpP [wpLuma] with bitDepthC := 0 } ≠ [] ∧
    ¬(1 ≤ ({ wpP [wpLuma] with bitDepthC := 0 }).bitDepthC.toNat ∧
      ({ wpP [wpLuma] with bitDepthC := 0 }).bitDepthC.toNat ≤ 16) ∧
    wpCoded { wpP [wpLuma] with bitDepthC := 17 } ≠ [] ∧
    ¬(1 ≤ ({ wpP [wpLuma] with bitDepthC := 17 }).bitDepthC.toNat ∧
      ({ wpP [wpLuma] with bitDepthC := 17 }).bitDepthC.toNat ≤ 16) := by decide
/-- The default parameters without scaling lists. -/
def noLists : Params := { defaultParams with slClasses := [] }

/-- Combined mode in a P slice; an empty sequence with a depth of 0; a table in range; a weight delta out of range. -/
theorem witness_WpTableForm :
    (({ wpP [] with mode := .combined }).sliceType = .p ∧ ({ wpP [] with mode := .combined }).mode = .combined) ∧
    (¬((wpP []).sliceType = .p ∧ (wpP []).mode = .combined) ∧ wpCoded { wpP [] with bitDepthC := 0 } = []) ∧
    (wpCoded { wpP [wpLuma] with bitDepthC := 16 } ≠ [] ∧
      (wpFields noLists { wpP [wpLuma, wpNegChroma] with bitDepthC := 16 }).all Field.inRange = true) ∧
    (wpCoded (wpP [wpBig]) ≠ [] ∧ 1 ≤ (wpP [wpBig]).bitDepthC.toNat ∧ (wpP [wpBig]).bitDepthC.toNat ≤ 16 ∧
      (wpFields noLists (wpP [wpBig])).all Field.inRange = false) ∧
    paramsWf { withRecord (.wp (wpP [wpBig])) with params := noLists }.params := by decide

/-- Copy mode, a sentinel and a DC term, all in range; and a DC field out of range. -/
theorem witness_SlListsForm :
    (Ready (withSl slSmall) ∧ paramsWf (withSl slSmall).params ∧
      (withSl slSmall).store.read (withSl slSmall).opa.value.toNat = some (.sl slSmall) ∧
      slShape (withSl slSmall).params slSmall ∧
      (slFields (withSl slSmall).params slSmall).all Field.inRange = true) ∧
    (slShape (withSl slBadDc).params slBadDc ∧
      (slFields (withSl slBadDc).params slBadDc).all Field.inRange = false) := by decide

theorem witness_HostRegisterAccess :
    (hosted [.write 4 4 7]).host = .write ((hosted [.write 4 4 7]).params.base + 0x4) 4 7 :: [] ∧
    (hosted [.write 8 4 7]).host = .write ((hosted [.write 8 4 7]).params.base + 0x8) 4 7 :: [] ∧
    (hosted [.write 12 4 7]).host = .write ((hosted [.write 12 4 7]).params.base + 0xC) 4 7 :: [] ∧
    (hosted [.read 0 4]).host = .read (hosted [.read 0 4]).params.base 4 :: [] ∧
    ({ withOpa 7 with host := [.read 4 4] }).host = .read ((withOpa 7).params.base + 0x4) 4 :: [] ∧
    (withOpa 7).opa.valid = true ∧
    ({ withOperands 7 8 with host := [.read 8 4] }).host = .read ((withOperands 7 8).params.base + 0x8) 4 :: [] ∧
    (withOperands 7 8).opb.valid = true ∧
    (hosted [.read 12 4]).host = .read ((hosted [.read 12 4]).params.base + 0xC) 4 :: [] := by decide
theorem witness_ReadOfUnwrittenOperandAnswers :
    ((hosted [.read 4 4]).host = .read ((hosted [.read 4 4]).params.base + 0x4) 4 :: [] ∧
      (hosted [.read 4 4]).opa.valid = false) ∧
    ((hosted [.read 8 4]).host = .read ((hosted [.read 8 4]).params.base + 0x8) 4 :: [] ∧
      (hosted [.read 8 4]).opb.valid = false) := by decide
/-- A halfword, an unaligned word, and the word past the window. -/
theorem witness_AccessOutsideTheWindowIsRefused :
    ((2 : Nat) ≠ 4 ∧ (hosted [.write 4 2 7]).host = .write 4 2 7 :: []) ∧
    ((0x11 : Nat) ≠ State.reset.params.base ∧ (0x11 : Nat) ≠ State.reset.params.base + 0x4 ∧
      (0x11 : Nat) ≠ State.reset.params.base + 0x8 ∧ (0x11 : Nat) ≠ State.reset.params.base + 0xC ∧
      (hosted [.read 0x11 4]).host = .read 0x11 4 :: []) ∧
    ((0x10 : Nat) ≠ State.reset.params.base ∧ (0x10 : Nat) ≠ State.reset.params.base + 0x4 ∧
      (0x10 : Nat) ≠ State.reset.params.base + 0x8 ∧ (0x10 : Nat) ≠ State.reset.params.base + 0xC) := by decide
/-- A direct write of one bit to a full sink stops. -/
theorem full_sink_stops (s : State) (h : s.host = [.sinkWrite 0 1]) (hl : s.sink.length = sinkMaxBits) :
    step s = .fault .hostSinkOverflow := by
  simp [step, h, hostStep, hostAppend, State.pos, hl, sinkMaxNbits, bitsMsb]

theorem witness_OnlyHostMisuseStops :
    step (hosted [.read 1 4]) = .refused .hostAccess ∧ step (hosted [.sinkWrite 0 0]) = .refused .sinkWriteWidth ∧
    ∃ s, step s = .fault .hostSinkOverflow :=
  ⟨rfl, rfl, { fullSink sinkMaxBits with host := [.sinkWrite 0 1] }, full_sink_stops _ rfl (fullSink_length _)⟩
theorem witness_HostSinkWriteAppendsField :
    (hosted [.sinkWrite 5 32]).host = .sinkWrite 5 32 :: [] ∧ 1 ≤ 32 ∧ 32 ≤ 32 ∧
    (hosted [.sinkWrite 5 32]).sink.length + 32 ≤ 2 ^ 32 - 1 := by decide
theorem witness_HostAlignmentReachesAByte :
    ((hosted [.sinkAlignZeros]).host = .sinkAlignZeros :: [] ∧
      (hosted [.sinkAlignZeros]).sink.length + 7 ≤ 2 ^ 32 - 1) ∧
    ((hosted [.sinkAlignOne]).host = .sinkAlignOne :: [] ∧
      (hosted [.sinkAlignOne]).sink.length + 8 ≤ 2 ^ 32 - 1) := by decide
theorem witness_SinkWriteGroupingIsInvisible :
    (∀ x ∈ ([(5, 1), (6, 32)] : List (Word × Nat)), 1 ≤ x.2 ∧ x.2 ≤ 32) ∧
    (hosted [.sinkWrite 5 1, .sinkWrite 6 32]).host =
      ([(5, 1), (6, 32)] : List (Word × Nat)).map (fun x => .sinkWrite x.1 x.2) ∧
    (hosted [.sinkWrite 5 1, .sinkWrite 6 32]).sink.length +
      (([(5, 1), (6, 32)] : List (Word × Nat)).map Prod.snd).sum ≤ 2 ^ 32 - 1 := by decide
theorem witness_RecordChangeIsSeenAtItsHandleOnly :
    { withRecord (.rps rpsExpl) with host := [.setRecord 0xFFFFFFFF (some (.rps rpsEmpty))] }.store.wf ∧
    { withRecord (.rps rpsExpl) with host := [.setRecord 0xFFFFFFFF (some (.rps rpsEmpty))] }.host =
      .setRecord 0xFFFFFFFF (some (.rps rpsEmpty)) :: [] ∧ 1 ≠ (0xFFFFFFFF : Word).toNat := by decide
theorem witness_ByteViewIsMsbFirst : 8 < (digits [0, 1, 0, 0, 0, 0, 0, 0, 1]).length := by decide
theorem witness_PseudoInstructionRunsItsCommand :
    63 < 64 ∧ (hosted ((Pseudo.putU 5 63).expand.map (Stmt.op 0))).host =
      (Pseudo.putU 5 63).expand.map (Stmt.op (hosted []).params.base) ++ [] ∧
    (hosted ((Pseudo.putTu 5 6).expand.map (Stmt.op 0))).host =
      (Pseudo.putTu 5 6).expand.map (Stmt.op (hosted []).params.base) ++ [] := by decide

end Sys2Proof.Tests
end

section
/-! Direct writes to the sink by the host (20_memory.md R40). -/

namespace Sys2Proof.Machine

open Sys2Proof.Safety

/-- A direct write of a legal width is the direct append of the field `fixForm` describes: R40's width check passes. -/
theorem hostStep_sinkWrite_of_legal {n : Nat} (v : Word) (s : State) (h1 : 1 ≤ n) (h32 : n ≤ 32) :
    hostStep (.sinkWrite v n) s = hostAppend s (fixForm n v.toNat) := by
  have hn : ¬(n = 0 ∨ sinkMaxNbits < n) := by
    unfold sinkMaxNbits
    omega
  simp only [hostStep, if_neg hn, bitsMsb_eq_fixForm]

/-- Settles O48: the write is a legal one, so it is a direct append, and its `n` bits fit the sink. -/
theorem hostSinkWriteAppendsField : Obligations.HostSinkWriteAppendsField := by
  intro s rest v n hh h1 h32 hfit
  have hlen : (fixForm n v.toNat).length = n := List.length_ofFn
  have happ : hostAppend { s with host := rest } (fixForm n v.toNat) =
      .next (({ s with host := rest } : State).append (fixForm n v.toNat)) :=
    hostAppend_of_fits (by rwa [hlen])
  calc step s = hostStep (.sinkWrite v n) { s with host := rest } := by simp only [step, hh]
    _ = hostAppend { s with host := rest } (fixForm n v.toNat) := hostStep_sinkWrite_of_legal v _ h1 h32
    _ = .next { s with host := rest, sink := s.sink ++ fixForm n v.toNat } := happ

end Sys2Proof.Machine
end

section
/-! Illegal command words (30_encoding.md R62, R65). -/

namespace Sys2Proof.Machine

open Sys2Proof.Safety

/-- The opcode of every command's row is assigned (30_encoding.md R63). -/
theorem opcode_mem_assignedOpcodes (i : Instr) : i.opcode.toNat ∈ assignedOpcodes := by
  cases i <;> simp [Instr.opcode, assignedOpcodes]

/-- A word that decodes has an assigned opcode (30_encoding.md R65). -/
theorem opcode_assigned_of_decode {w : Word} {i : Instr} (h : decode w = .ok i) :
    w.toNat % 256 ∈ assignedOpcodes := by
  obtain ⟨hopc, -⟩ := decode_fields h
  exact hopc ▸ opcode_mem_assignedOpcodes i

/-- A word that decodes has the reserved bits of its format clear: 31:14 in format CN, the format of `FIXED` and `EGESC`
alone, and 31:8 in format C0 (30_encoding.md R62, R63). -/
theorem reserved_clear_of_decode {w : Word} {i : Instr} (h : decode w = .ok i) :
    ((w.toNat % 256 = 0x01 ∨ w.toNat % 256 = 0x07) ∧ w.toNat / 2 ^ 14 = 0) ∨ w.toNat / 256 = 0 := by
  obtain ⟨hopc, hbits⟩ := decode_fields h
  cases i with
  | fixed n => exact .inl ⟨.inl hopc, hbits.1⟩
  | egesc n => exact .inl ⟨.inr hopc, hbits.1⟩
  | flag | uvlc | svlc | tu | eglvl | rps | epo | wp | sl => exact .inr hbits

/-- On a block that is not faulted, a word that does not decode makes fault entry with `ILLEGAL_COMMAND`. -/
theorem commandWrite_of_undecodable {w : Word} {s : State} (hf : s.status.fault = false)
    (hw : ∀ i, decode w ≠ .ok i) :
    commandWrite w s = .next (s.faultEntry .illegalCommand (opcField w)) := by
  cases hd : decode w with
  | ok i => exact absurd hd (hw i)
  | error e => simp only [commandWrite, hd, State.complete_error hf]

/-- Settles O6: a word with an unassigned opcode or a reserved bit set decodes to no command, so the write makes fault
entry. -/
theorem illegalWordRaisesIllegalCommand : Obligations.IllegalWordRaisesIllegalCommand := by
  intro s w rest hh hf hillegal
  have hw (i : Instr) : decode w ≠ .ok i := by
    intro hd
    have hres := reserved_clear_of_decode hd
    rcases hillegal with hopc | ⟨hnotFixed, hnotEgesc, hC0⟩ | hCN
    · exact hopc (opcode_assigned_of_decode hd)
    · omega
    · omega
  calc step s = commandWrite w { s with host := rest } := step_of_command hh
    _ = .next (State.faultEntry { s with host := rest } .illegalCommand (opcField w)) :=
      commandWrite_of_undecodable hf hw

end Sys2Proof.Machine
end

section
/-! The primitive commands (40_vlc.md): what each one answers once its operands are written, and the words of format CN. -/

namespace Sys2Proof.Machine

open Sys2Proof.Safety

/-! ### Words -/

/-- A word `opcode + 256 * N` with a 6-bit `N`: its opcode field, its immediate, and no reserved bit of format CN
(30_encoding.md R60-R62). -/
theorem wordCN_fields {opc n : Nat} (hopc : opc < 256) (hn : n < 64) :
    (opcField (BitVec.ofNat 32 (opc + 256 * n))).toNat = opc ∧ immField (BitVec.ofNat 32 (opc + 256 * n)) = n ∧
    (BitVec.ofNat 32 (opc + 256 * n)).extractLsb' 14 18 = 0 := by
  have hw : (BitVec.ofNat 32 (opc + 256 * n)).toNat = opc + 256 * n := by
    rw [BitVec.toNat_ofNat]
    omega
  rw [opcField_toNat, immField_eq, reservedCN_iff, hw]
  omega

/-- The word of FIXED with `N` in bits 13:8 (30_encoding.md R61, R63). -/
theorem decode_wordFixed {n : Nat} (hn : n < 64) : decode (BitVec.ofNat 32 (0x01 + 256 * n)) = .ok (.fixed n) := by
  obtain ⟨hopc, himm, hres⟩ := wordCN_fields (opc := 0x01) (by decide) hn
  simp only [decode, hopc, decodeCN, hres, himm, if_true]

/-- The word of EGESC with `N` in bits 13:8 (30_encoding.md R61, R63). -/
theorem decode_wordEgesc {n : Nat} (hn : n < 64) : decode (BitVec.ofNat 32 (0x07 + 256 * n)) = .ok (.egesc n) := by
  obtain ⟨hopc, himm, hres⟩ := wordCN_fields (opc := 0x07) (by decide) hn
  simp only [decode, hopc, decodeCN, hres, himm, if_true]

/-! ### Operands -/

/-- What a command does with `u32(OPA)` once OPA is written. -/
theorem State.opaU32_bind {s : State} (h : s.opa.valid = true) (f : Nat → Code) :
    (s.opaU32 >>= f) = f s.opa.value.toNat := by
  rw [State.opaU32_of_valid h]
  rfl

/-- What a command does with `s32(OPA)` once OPA is written. -/
theorem State.opaS32_bind {s : State} (h : s.opa.valid = true) (f : Int → Code) :
    (s.opaS32 >>= f) = f s.opa.value.toInt := by
  rw [State.opaS32_of_valid h]
  rfl

/-- What a command does with `u32(OPB)` once OPB is written. -/
theorem State.opbU32_bind {s : State} (h : s.opb.valid = true) (f : Nat → Code) :
    (s.opbU32 >>= f) = f s.opb.value.toNat := by
  rw [State.opbU32_of_valid h]
  rfl

/-- The read of OPA is the first thing every command's answer depends on (30_encoding.md R66 step 3). -/
theorem codeOf_of_opa_unwritten (i : Instr) {s : State} (h : s.opa.valid = false) :
    codeOf i s = .error .unwrittenOperand := by
  have hu : s.opaU32 = .error .unwrittenOperand := by rw [State.opaU32, Operand.get_of_unwritten h]; rfl
  have hs : s.opaS32 = .error .unwrittenOperand := by rw [State.opaS32, Operand.get_of_unwritten h]; rfl
  have hn : s.named = .error .unwrittenOperand := by rw [State.named, hu]; rfl
  cases i with
  | fixed | flag | uvlc | tu | eglvl | egesc => rw [codeOf, hu]; rfl
  | svlc => rw [codeOf, hs]; rfl
  | rps => rw [codeOf, State.rpsOperand, hn]; rfl
  | epo => rw [codeOf, State.epoOperand, hn]; rfl
  | wp => rw [codeOf, State.wpOperand, hn]; rfl
  | sl => rw [codeOf, State.slOperand, hn]; rfl

/-- Every command needs OPA (30_encoding.md R64). -/
theorem needsOpa (i : Instr) : NeedsOpa i := fun _ hf hv =>
  raises_of_codeOf .unwrittenOperand hf (codeOf_of_opa_unwritten i hv)

/-! ### Answers with written operands -/

section
variable {s : State} (hv : s.opa.valid = true)
include hv

theorem codeOf_fixed (n : Nat) : codeOf (.fixed n) s = fix s.opa.value.toNat n := State.opaU32_bind hv (fix · n)

theorem codeOf_flag : codeOf .flag s = fix s.opa.value.toNat 1 := State.opaU32_bind hv (fix · 1)

theorem codeOf_uvlc : codeOf .uvlc s = ue s.opa.value.toNat := State.opaU32_bind hv (ue ·)

theorem codeOf_svlc : codeOf .svlc s = se s.opa.value.toInt := State.opaS32_bind hv se

theorem codeOf_eglvl : codeOf .eglvl s = egl s.opa.value.toNat := State.opaU32_bind hv egl

theorem codeOf_egesc (k : Nat) : codeOf (.egesc k) s = egk s.opa.value.toNat k := State.opaU32_bind hv (egk · k)

/-- With OPA written, TU reads OPB whatever the symbol is (40_vlc.md R114). -/
theorem codeOf_tu_opb : codeOf .tu s = s.opbU32 >>= truncatedUnary s.opa.value.toNat :=
  State.opaU32_bind hv fun a => s.opbU32 >>= truncatedUnary a

theorem codeOf_tu (hb : s.opb.valid = true) :
    codeOf .tu s = truncatedUnary s.opa.value.toNat s.opb.value.toNat := by
  rw [codeOf_tu_opb hv, State.opbU32_bind hb]

end

end Sys2Proof.Machine
end

section
/-! FIXED and FLAG (40_vlc.md R100, R110, R111). -/

namespace Sys2Proof.Machine

open Sys2Proof.Safety

/-- `FIX` in its range (40_vlc.md R100). -/
theorem fix_of_legal {n : Nat} (v : Nat) (h1 : 1 ≤ n) (h32 : n ≤ 32) : fix v n = .ok (fixForm n v) := by
  rw [fix, if_neg (by unfold sinkMaxNbits; omega), bitsMsb_eq_fixForm]

/-- `FIX` outside its range (40_vlc.md R100). -/
theorem fix_of_illegal {n : Nat} (v : Nat) (h : n = 0 ∨ 32 < n) : fix v n = .error .fixedLength := if_pos h

/-- Settles O22: FIXED answers `FIX(u32(OPA), N)`, and `FIX` has two cases. -/
theorem fixedAppendsLowBits : Obligations.FixedAppendsLowBits := by
  refine ⟨fun v n => ⟨fix_of_legal v, fix_of_illegal v⟩, fun n => decode_wordFixed, fun n => ⟨needsOpa _, ?_⟩⟩
  rintro s ⟨hf, hv⟩
  refine ⟨fun h1 h32 => outputs_of_codeOf hf ?_, fun h => raises_of_codeOf .fixedLength hf ?_⟩
  · rw [codeOf_fixed hv, fix_of_legal _ h1 h32]
  · rw [codeOf_fixed hv, fix_of_illegal _ h]

/-- The one low bit of a word. -/
theorem fixForm_one (w : Word) : fixForm 1 w.toNat = [w.getLsbD 0] := by
  simp [fixForm, BitVec.getLsbD]

/-- Settles O23: FLAG answers `FIX(u32(OPA), 1)`. -/
theorem flagAppendsBitZero : Obligations.FlagAppendsBitZero := by
  refine ⟨by decide, needsOpa _, ?_⟩
  rintro s ⟨hf, hv⟩
  apply outputs_of_codeOf hf
  rw [codeOf_flag hv, fix_of_legal _ (by decide) (by decide), fixForm_one]

end Sys2Proof.Machine
end

section
/-! UVLC and SVLC (40_vlc.md R101-R103, R112, R113). -/

namespace Sys2Proof.Machine

open Sys2Proof.Safety

/-- `UE` in its range, in closed form (40_vlc.md R101). -/
theorem ue_of_inRange {v : Int} (h : 0 ≤ v ∧ v ≤ 2 ^ 32 - 2) : ue v = .ok (ueForm v.toNat) :=
  ue_eq_ok.mpr ⟨h, ueForm_eq _⟩

/-- `UE` outside its range (40_vlc.md R101). -/
theorem ue_of_outOfRange {v : Int} (h : v < 0 ∨ 2 ^ 32 - 2 < v) : ue v = .error .uvlcRange :=
  ue_eq_error.mpr ⟨by omega, rfl⟩

/-- The one word `UE` cannot code is the largest (40_vlc.md R112). -/
theorem toNat_le_uvlcMax {w : Word} (h : w ≠ 0xFFFFFFFF) : w.toNat ≤ 2 ^ 32 - 2 := by
  bv_omega

/-- Settles O24: UVLC answers `UE(u32(OPA))`, in range for every word but the largest. -/
theorem uvlcAppendsExpGolomb : Obligations.UvlcAppendsExpGolomb := by
  refine ⟨fun v => ⟨ue_of_inRange, ue_of_outOfRange⟩, by decide, needsOpa _, ?_⟩
  rintro s ⟨hf, hv⟩
  refine ⟨fun h => outputs_of_codeOf hf ?_, fun h => raises_of_codeOf .uvlcRange hf ?_⟩
  · have hle := toNat_le_uvlcMax h
    rw [codeOf_uvlc hv, ue_of_inRange (by omega), Int.toNat_natCast]
  · rw [codeOf_uvlc hv, h]
    exact ue_of_outOfRange (by decide)

/-- `zigzag` on each side of 0 (40_vlc.md R102). -/
theorem zigzag_of_nonpos {v : Int} (h : v ≤ 0) : zigzag v = -2 * v := if_pos h

theorem zigzag_of_pos {v : Int} (h : 0 < v) : zigzag v = 2 * v - 1 := if_neg (by omega)

/-- `SE` outside its range (40_vlc.md R103). -/
theorem se_of_outOfRange {v : Int} (h : v < -(2 ^ 31 - 1) ∨ 2 ^ 31 - 1 < v) : se v = .error .svlcRange :=
  se_eq_error.mpr ⟨by omega, rfl⟩

/-- The one word `SE` cannot code is the least signed one (40_vlc.md R113). -/
theorem toInt_svlcRange {w : Word} (h : w ≠ 0x80000000) : -(2 ^ 31 - 1) ≤ w.toInt ∧ w.toInt ≤ 2 ^ 31 - 1 := by
  have hn : w.toNat ≠ 2 ^ 31 := fun e => h (BitVec.eq_of_toNat_eq e)
  rw [BitVec.toInt_eq_toNat_cond]
  split <;> omega

/-- Settles O25: SVLC answers `SE(s32(OPA))`, in range for every word but the least signed one. -/
theorem svlcAppendsSignedExpGolomb : Obligations.SvlcAppendsSignedExpGolomb := by
  refine ⟨fun v => ⟨zigzag_of_nonpos, zigzag_of_pos⟩,
    fun v => ⟨fun h => se_eq_ok.mpr ⟨h, ueForm_eq _⟩, se_of_outOfRange⟩, by decide, needsOpa _, ?_⟩
  rintro s ⟨hf, hv⟩
  refine ⟨fun h => outputs_of_codeOf hf ?_, fun h => raises_of_codeOf .svlcRange hf ?_⟩
  · rw [codeOf_svlc hv]
    exact se_eq_ok.mpr ⟨toInt_svlcRange h, seForm_eq _⟩
  · rw [codeOf_svlc hv, h]
    exact se_of_outOfRange (by decide)

end Sys2Proof.Machine
end

section
/-! TU (40_vlc.md R104, R114). -/

namespace Sys2Proof.Machine

open Sys2Proof.Safety

/-- `TU` against the maximum 0 (40_vlc.md R104). -/
theorem truncatedUnary_zero (s : Nat) : truncatedUnary s 0 = .ok [] := rfl

/-- `TU` of a symbol above a positive maximum (40_vlc.md R104). -/
theorem truncatedUnary_of_gt {s M : Nat} (hM : 0 < M) (h : M < s) : truncatedUnary s M = .error .tuRange := by
  rw [truncatedUnary, if_neg (by omega), if_pos h]

/-- `TU` of a symbol up to a positive maximum (40_vlc.md R104). -/
theorem truncatedUnary_of_le {s M : Nat} (hM : 0 < M) (h : s ≤ M) :
    truncatedUnary s M = .ok (List.replicate s true ++ if s < M then [false] else []) := by
  rw [truncatedUnary, if_neg (by omega), if_neg (by omega), rep]

/-- TU needs both operands, OPB even where the maximum would be 0 (40_vlc.md R114). -/
theorem codeOf_tu_of_unwritten {s : State} (h : s.opa.valid = false ∨ s.opb.valid = false) :
    codeOf .tu s = .error .unwrittenOperand := by
  cases hv : s.opa.valid with
  | false => exact codeOf_of_opa_unwritten _ hv
  | true =>
    have hb : s.opb.valid = false := h.resolve_left (by simp [hv])
    rw [codeOf_tu_opb hv, State.opbU32, Operand.get_of_unwritten hb]
    rfl

/-- Settles O26: TU answers `TU(u32(OPA), u32(OPB))`, by the cases of the maximum and of the symbol against it. -/
theorem tuAppendsTruncatedUnary : Obligations.TuAppendsTruncatedUnary := by
  refine ⟨fun s M => ⟨?_, truncatedUnary_of_gt, truncatedUnary_of_le⟩, by decide,
    fun s hf h => raises_of_codeOf .unwrittenOperand hf (codeOf_tu_of_unwritten h), ?_⟩
  · rintro rfl
    exact truncatedUnary_zero s
  · rintro s ⟨hf, hv⟩ hb
    have hcode := codeOf_tu hv hb
    refine ⟨fun h0 => outputs_of_codeOf hf ?_, fun hM hlt => outputs_of_codeOf hf ?_,
      fun hM heq => outputs_of_codeOf hf ?_, fun hM hgt => raises_of_codeOf .tuRange hf ?_⟩
    · rw [hcode, h0, truncatedUnary_zero]
    · rw [hcode, truncatedUnary_of_le hM hlt.le, if_pos hlt]
    · rw [hcode, truncatedUnary_of_le hM heq.le, if_neg heq.not_lt, List.append_nil]
    · rw [hcode, truncatedUnary_of_gt hM hgt]

end Sys2Proof.Machine
end

section
/-! EGLVL and EGESC (40_vlc.md R105, R106, R115, R116). -/

namespace Sys2Proof.Machine

open Sys2Proof.Safety

/-- The loop of `EGK` without a bound on its turns: each takes `2^c` off what remains of the symbol (40_vlc.md R105). -/
def egkRun (c r : Nat) : Bits :=
  if 2 ^ c ≤ r then true :: egkRun (c + 1) (r - 2 ^ c) else false :: fixForm c r
termination_by r
decreasing_by
  have := Nat.two_pow_pos c
  omega

/-- There is such a loop. -/
theorem egkRun_isEgkLoop : IsEgkLoop egkRun := fun c r => by rw [egkRun]

/-- The machine's bounded loop is any loop of R105, where the symbol lies below the last threshold its turns reach. -/
theorem egkLoop_eq_of_isEgkLoop {run : Nat → Nat → Bits} (hrun : IsEgkLoop run) (fuel c r : Nat)
    (h : r + 2 ^ c < 2 ^ (c + fuel + 1)) : egkLoop fuel c r = run c r := by
  induction fuel generalizing c r with
  | zero =>
    rw [Nat.add_zero, pow_succ] at h
    rw [hrun, if_neg (by omega), egkLoop, bitsMsb_eq_fixForm]
  | succ fuel ih =>
    rw [hrun, egkLoop]
    by_cases hc : 2 ^ c ≤ r
    · have hnext : r - 2 ^ c + 2 ^ (c + 1) < 2 ^ (c + 1 + fuel + 1) := by
        rw [pow_succ 2 c, show c + 1 + fuel + 1 = c + (fuel + 1) + 1 by omega]
        omega
      rw [if_pos hc, if_pos hc, ih _ _ hnext]
    · rw [if_neg hc, if_neg hc, bitsMsb_eq_fixForm]

/-- `EGK` in its range is what the loop emits: 32 turns are enough below `2^32 - 2^k` (40_vlc.md R105). -/
theorem egk_of_inRange {run : Nat → Nat → Bits} (hrun : IsEgkLoop run) {s k : Nat} (hk : k ≤ 31)
    (hs : s < 2 ^ 32 - 2 ^ k) : egk s k = .ok (run k s) := by
  have hfuel : 2 ^ 32 ≤ 2 ^ (k + 32 + 1) := Nat.pow_le_pow_right (by decide) (by omega)
  rw [egk, if_neg (by unfold egescMaxOrder; omega), egkLoop_eq_of_isEgkLoop hrun _ _ _ (by omega)]

/-- `EGK` outside its range (40_vlc.md R105). -/
theorem egk_of_outOfRange {s k : Nat} (h : 31 < k ∨ 2 ^ 32 - 2 ^ k ≤ s) : egk s k = .error .egescRange := if_pos h

/-- `EGL` below the cap (40_vlc.md R106). -/
theorem egl_of_lt {s : Nat} (h : s < 13) : egl s = .ok (List.replicate s true ++ [false]) := if_pos h

/-- `EGL` from the cap on: the suffix of a 32-bit symbol is in the range of `EGK` of order 0, so it has no fault
(40_vlc.md R106). -/
theorem egl_of_ge {run : Nat → Nat → Bits} (hrun : IsEgkLoop run) {s : Nat} (h : 13 ≤ s) (hs : s < 2 ^ 32) :
    egl s = .ok (List.replicate 13 true ++ run 0 (s - 13)) := by
  have hsuffix : egk (s - 13) 0 = .ok (run 0 (s - 13)) := egk_of_inRange hrun (by decide) (by omega)
  rw [egl, eglvlCap, if_neg (by omega), hsuffix]
  rfl

/-- Settles O27: EGLVL answers `EGL(u32(OPA))`, and a word is a 32-bit symbol. -/
theorem eglvlAppendsLevelCode : Obligations.EglvlAppendsLevelCode := by
  refine ⟨by decide, needsOpa _, egkRun, egkRun_isEgkLoop, fun s => ⟨egl_of_lt, egl_of_ge egkRun_isEgkLoop⟩, ?_⟩
  rintro s ⟨hf, hv⟩
  refine ⟨fun h => outputs_of_codeOf hf ?_, fun h => outputs_of_codeOf hf ?_⟩
  · rw [codeOf_eglvl hv, egl_of_lt h]
  · rw [codeOf_eglvl hv, egl_of_ge egkRun_isEgkLoop h s.opa.value.isLt]

/-- Settles O28: EGESC answers `EGK(u32(OPA), N)`, and `EGK` has two cases. -/
theorem egescAppendsEscapedCode : Obligations.EgescAppendsEscapedCode := by
  refine ⟨fun k => decode_wordEgesc, fun k => needsOpa _, egkRun, egkRun_isEgkLoop,
    fun k s => ⟨egk_of_inRange egkRun_isEgkLoop, egk_of_outOfRange⟩, ?_⟩
  rintro k s ⟨hf, hv⟩
  refine ⟨fun hk hs => outputs_of_codeOf hf ?_, fun h => raises_of_codeOf .egescRange hf ?_⟩
  · rw [codeOf_egesc hv, egk_of_inRange egkRun_isEgkLoop hk hs]
  · rw [codeOf_egesc hv, egk_of_outOfRange h]

end Sys2Proof.Machine
end

section
/-! RPS (41_rps.md R142-R158). -/

namespace Sys2Proof.Machine

open Sys2Proof.Safety

/-- Settles O32: the preconditions are checked before any code, and answer `RPS_PRECOND` where they do not hold. -/
theorem rpsPreconditionRaises : Obligations.RpsPreconditionRaises := by
  rintro s r ⟨hf, hv⟩ hr hu hp
  apply raises_of_codeOf .rpsPrecond hf
  rw [codeOf_rps hv hr hu, rpsPrecond_eq, if_neg hp]
  rfl

section
variable {s : State} {r : RpsRecord} (hs : Ready s) (hr : s.store.read s.opa.value.toNat = some (.rps r))
  (hu : r.used.length = r.deltaPoc.length) (hp : rpsPrecondHolds r)
include hs hr hu hp

/-- RPS codes the form flag, the fields of the form and, where long-term coding is enabled, those of the long-term part
(41_rps.md R158). -/
theorem codes_rps :
    Codes .rps s (.bit r.interRps :: (if r.interRps then rpsInterFields r else rpsExplicitFields r) ++
      (if r.ltEnabled then rpsLongTermFields r else [])) :=
  codes_of_codeOf hs.1 (codeOf_rps_fields hs.2 hr hu hp)

/-- Without long-term coding the fields end with those of the form (41_rps.md R149). -/
theorem codes_rps_of_not_ltEnabled (hl : r.ltEnabled = false) :
    Codes .rps s (.bit r.interRps :: if r.interRps then rpsInterFields r else rpsExplicitFields r) := by
  simpa [hl] using codes_rps hs hr hu hp

end

/-- Settles O33: it is the case of the explicit form without long-term coding. -/
theorem rpsExplicitForm : Obligations.RpsExplicitForm := by
  intro s r hs hr hu hp hi hl
  simpa [hi] using codes_rps_of_not_ltEnabled hs hr hu hp hl

/-- Settles O35: it is the case of long-term coding, in either form. -/
theorem rpsLongTermPart : Obligations.RpsLongTermPart := by
  intro s r hs hr hu hp hl
  simpa [hl] using codes_rps hs hr hu hp

/-! ### The inter-RPS form -/

/-- The fields of one indicator (41_rps.md R145). -/
def refIdcFields : RefIdc → List Field
  | .used => [.bit true]
  | .delta => [.bit false, .bit true]
  | .dropped => [.bit false, .bit false]

/-- The inter-RPS form: the index, the sign, the magnitude and then the indicators (41_rps.md R144, R145). -/
theorem rpsInterFields_eq (r : RpsRecord) :
    rpsInterFields r = .ue (r.deltaRIdx.toNat - 1) :: .bit (decide (r.deltaRps.toInt < 0)) ::
      .ue (|r.deltaRps.toInt| - 1) :: r.refIdc.flatMap refIdcFields := rfl

/-- Indicators are bits, so they have no range fault. -/
theorem refIdcFields_inRange (l : List RefIdc) : (l.flatMap refIdcFields).all Field.inRange = true := by
  rw [List.all_flatMap, List.all_eq_true]
  intro x _
  cases x <;> rfl

/-- A legal reference index less one is in the range of `UE` (41_rps.md R142, R144). -/
theorem deltaRIdx_inRange {r : RpsRecord} (hp : rpsPrecondHolds r) (hi : r.interRps = true) :
    (Field.ue (r.deltaRIdx.toNat - 1)).inRange = true := by
  obtain ⟨-, hidx, -⟩ := hp
  obtain ⟨hpos, -⟩ := hidx hi
  have hlt := r.deltaRIdx.toNat_lt
  simp only [Field.inRange, decide_eq_true_eq]
  omega

/-- The magnitude less one of a nonzero `deltaRps` is in the range of `UE` (41_rps.md R144). -/
theorem deltaRps_inRange {d : Int32} (hd : d ≠ 0) : (Field.ue (|d.toInt| - 1)).inRange = true := by
  have hne : d.toInt ≠ 0 := fun h => hd (Int32.toInt_inj.mp h)
  have hpos : 0 < |d.toInt| := abs_pos.mpr hne
  have hle : |d.toInt| ≤ 2 ^ 31 := abs_le.mpr ⟨d.le_toInt, d.toInt_lt.le⟩
  simp only [Field.inRange, decide_eq_true_eq]
  omega

/-- Settles O34: with `deltaRps` not 0 every field is in range, and with 0 the magnitude's `UE(-1)` is the first that is
not. -/
theorem rpsInterForm : Obligations.RpsInterForm := by
  intro s r hs hr hu hp hi hl
  have hcodes : Codes .rps s (.bit true :: rpsInterFields r) := by
    simpa [hi] using codes_rps_of_not_ltEnabled hs hr hu hp hl
  obtain ⟨hout, hfault⟩ := hcodes
  have hidx := deltaRIdx_inRange hp hi
  have hbit (b : Bool) : (Field.bit b).inRange = true := rfl
  rw [rpsInterFields_eq] at hout hfault ⊢
  refine ⟨fun hd => hout ?_, fun hd => ?_⟩
  · simp only [List.all_cons, hbit, hidx, deltaRps_inRange hd, refIdcFields_inRange, Bool.and_self]
  · refine hfault [.bit true, .ue (r.deltaRIdx.toNat - 1), .bit (decide (r.deltaRps.toInt < 0))] _ _ rfl ?_ ?_
    · simp only [List.all_cons, List.all_nil, hbit, hidx, Bool.and_self]
    · rw [hd]
      rfl

end Sys2Proof.Machine
end

section
/-! EPO (42_entry_point.md R171-R178). -/

namespace Sys2Proof.Machine

open Sys2Proof.Safety

/-! ### Mode NONE -/

/-- The answer of EPO in mode NONE is the empty output (42_entry_point.md R171). -/
theorem epoBits_of_none {p : Params} {r : EpoRecord} {B0 : Nat} (hm : r.mode = .none) : epoBits p r B0 = .ok [] := by
  simp only [epoBits, hm]

/-- Settles O36: the output is empty, so within the counter it fits and appends nothing. -/
theorem epoNoneEmitsNothing : Obligations.EpoNoneEmitsNothing := by
  rintro s r ⟨hf, hv⟩ hr hm hlen
  have hcode : codeOf .epo s = .ok [] := by rw [codeOf_epo hv hr, epoBits_of_none hm]
  obtain ⟨hfits, -⟩ := outputs_of_codeOf hf hcode
  simpa using hfits hlen

/-! ### Decreasing tile addresses -/

/-- A negative difference of tile addresses raises `EPO_PRECOND` (42_entry_point.md R172). -/
theorem epoOffsets_of_tilesDecrease {r : EpoRecord} (hm : r.mode = .tiles) (hd : tilesDecrease r) :
    epoOffsets r = .error .epoPrecond := by
  simp only [epoOffsets, hm, if_pos ((tileOffsets_any_neg r).mpr hd)]

/-- It does so before the width is looked at (42_entry_point.md R178). -/
theorem epoBits_of_tilesDecrease {p : Params} {r : EpoRecord} {B0 : Nat} (hm : r.mode = .tiles)
    (hd : tilesDecrease r) : epoBits p r B0 = .error .epoPrecond := by
  simp only [epoBits, hm, epoOffsets_of_tilesDecrease hm hd]
  rfl

/-! ### The table -/

/-- The adjusted maximum with the maximum of the offsets (42_entry_point.md R174). -/
theorem epoAdjustedMax_eq (p : Params) (B0 : Nat) (off : List Nat) :
    epoAdjustedMax p B0 off = off.foldr max 0 + (B0 + p.nalHdrBits) / 8 + p.epoSlackBytes := by
  rw [epoAdjustedMax, maxOffset_eq]

/-- `UE` of a natural number in its range (40_vlc.md R101). -/
theorem ue_natCast {n : Nat} (h : n ≤ 2 ^ 32 - 2) : ue n = .ok (ueForm n) := by
  rw [ue_of_inRange (by omega), Int.toNat_natCast]

/-- A table of no entry is its count (42_entry_point.md R176). -/
theorem epoTable_nil (p : Params) (B0 w : Nat) : epoTable p B0 w [] = .ok (ueForm 0) := by
  rw [epoTable, List.length_nil, ue_natCast (by decide)]
  rfl

/-- Entries in no bits raise `EPO_CAPACITY` (42_entry_point.md R175). -/
theorem epoTable_cons_width_zero (p : Params) (B0 : Nat) {first : Nat} {rest : List Nat}
    (hlen : (first :: rest).length ≤ 2 ^ 32 - 2) : epoTable p B0 0 (first :: rest) = .error .epoCapacity := by
  rw [epoTable, ue_natCast hlen]
  rfl

/-- A table with entries: the first one corrected by the bytes of the header and of everything up to the table's end, and
`EPO_CAPACITY` where that no longer fits the width (42_entry_point.md R176, R177). -/
theorem epoTable_cons (p : Params) (B0 : Nat) {w first : Nat} {rest : List Nat} (h0 : 0 < w) (h32 : w ≤ 32)
    (hlen : (first :: rest).length ≤ 2 ^ 32 - 2) :
    epoTable p B0 w (first :: rest) =
      let head := ueForm (first :: rest).length ++ ueForm (w - 1)
      let first' := first + (B0 + head.length + p.nalHdrBits + (first :: rest).length * w) / 8
      if 2 ^ w ≤ first' then .error .epoCapacity
      else .ok (head ++ (first' :: rest).flatMap (fixForm w)) := by
  have hwidth : ue ((w : Int) - 1) = .ok (ueForm (w - 1)) := by
    rw [show (w : Int) - 1 = ((w - 1 : Nat) : Int) by omega, ue_natCast (by omega)]
  simp only [epoTable, ue_natCast hlen, hwidth, concatCodes_fix h0 h32, if_neg h0.ne', bind, Except.bind, pure,
    Except.pure]

section
variable {s : State} {r : EpoRecord} (hs : Ready s) (hr : s.store.read s.opa.value.toNat = some (.epo r))
  (hm : r.mode ≠ .none) (hd : ¬(r.mode = .tiles ∧ tilesDecrease r))
include hs hr hm hd

/-- A width above `EPO_MAX_WIDTH` raises `EPO_CAPACITY` (42_entry_point.md R175). -/
theorem codeOf_epo_of_wide
    (h : 32 < bitlen (epoAdjustedMax s.params s.sink.length (epoOffsetsForm r))) :
    codeOf .epo s = .error .epoCapacity := by
  rw [codeOf_epo hs.2 hr, epoBits_eq hm hd, if_pos h]

/-- A width up to `EPO_MAX_WIDTH` codes the table (42_entry_point.md R178). -/
theorem codeOf_epo_of_fitting
    (h : bitlen (epoAdjustedMax s.params s.sink.length (epoOffsetsForm r)) ≤ 32) :
    codeOf .epo s = epoTable s.params s.sink.length
      (bitlen (epoAdjustedMax s.params s.sink.length (epoOffsetsForm r))) (epoOffsetsForm r) := by
  rw [codeOf_epo hs.2 hr, epoBits_eq hm hd, if_neg h.not_gt]

end

/-- Settles O37: EPO answers `EPO_PRECOND`, `EPO_CAPACITY` for the width, or the table; and the table has a case for no
entry, for no width, and for entries with a width. -/
theorem epoTableForm : Obligations.EpoTableForm := by
  intro s r hs hr hm
  refine ⟨fun ⟨ht, hd⟩ => ?_, fun hd hlen => ?_⟩
  · exact raises_of_codeOf .epoPrecond hs.1 (by rw [codeOf_epo hs.2 hr, epoBits_of_tilesDecrease ht hd])
  intro off cnt B0 M w hMw hleast
  have hcount : off.length ≤ 2 ^ 32 - 2 := hlen
  have hw : bitlen (epoAdjustedMax s.params B0 off) = w := by
    rw [epoAdjustedMax_eq]
    exact bitlen_eq hMw hleast
  have htable (h32 : w ≤ 32) : codeOf .epo s = epoTable s.params B0 w off := by
    rw [codeOf_epo_of_fitting hs hr hm hd (hw.trans_le h32), hw]
  refine ⟨fun hwide => ?_, fun h32 hcnt => ?_, fun hw0 hcnt => ?_, fun h0 h32 first rest hoff => ?_⟩
  · exact raises_of_codeOf .epoCapacity hs.1 (codeOf_epo_of_wide hs hr hm hd (hwide.trans_eq hw.symm))
  · apply outputs_of_codeOf hs.1
    rw [htable h32, List.eq_nil_of_length_eq_zero hcnt, epoTable_nil]
  · obtain ⟨first, rest, hoff⟩ := List.exists_cons_of_length_pos hcnt
    apply raises_of_codeOf .epoCapacity hs.1
    rw [htable (by omega), hw0, hoff, epoTable_cons_width_zero _ _ (hoff ▸ hcount)]
  · have hcons := epoTable_cons s.params B0 h0 h32 (hoff ▸ hcount)
    rw [← hoff, ← htable h32] at hcons
    refine ⟨fun hbig => raises_of_codeOf .epoCapacity hs.1 ?_, fun hsmall => outputs_of_codeOf hs.1 ?_⟩
    · exact hcons.trans (if_pos hbig)
    · exact hcons.trans (if_neg hsmall.not_ge)

end Sys2Proof.Machine
end

section
/-! WP (43_weighted_pred.md R190-R197). -/

namespace Sys2Proof.Machine

open Sys2Proof.Safety

/-- Combined mode in a P slice raises `WP_PRECOND` (43_weighted_pred.md R190). -/
theorem wpBits_of_combined {p : Params} {r : WpRecord} (h : r.sliceType = .p ∧ r.mode = .combined) :
    wpBits p r = .error .wpPrecond := by
  rw [wpBits, wpSequence_eq, if_pos h]
  rfl

/-- Otherwise the depth is checked against the coded entries, and then they are coded (43_weighted_pred.md R197). -/
theorem wpBits_of_not_combined {p : Params} {r : WpRecord} (h : ¬(r.sliceType = .p ∧ r.mode = .combined)) :
    wpBits p r = wpDepthCheck r (wpCoded r) >>= fun _ => concatCodes (wpEntriesCodes p r false (wpCoded r)) := by
  rw [wpBits, wpSequence_eq, if_neg h]
  rfl

/-- A record with entries to code is not the combination that raises `WP_PRECOND` (43_weighted_pred.md R190). -/
theorem not_combined_of_wpCoded_ne_nil {r : WpRecord} (h : wpCoded r ≠ []) :
    ¬(r.sliceType = .p ∧ r.mode = .combined) := by
  rintro ⟨hp, hc⟩
  exact h (by simp only [wpCoded, hp, hc])

/-- An empty sequence emits nothing, whatever the bit depth (43_weighted_pred.md R191, R192). -/
theorem wpBits_of_nil {p : Params} {r : WpRecord} (h : ¬(r.sliceType = .p ∧ r.mode = .combined))
    (hnil : wpCoded r = []) : wpBits p r = .ok [] := by
  have hdepth : wpDepthCheck r [] = .ok () := if_neg fun hbad => hbad.1 rfl
  rw [wpBits_of_not_combined h, hnil, hdepth]
  rfl

section
variable {p : Params} {r : WpRecord} (hne : wpCoded r ≠ [])
include hne

/-- A depth outside 1..16 with entries to code raises `WP_PRECOND` before any of them (43_weighted_pred.md R191). -/
theorem wpBits_of_badDepth (hd : ¬(1 ≤ r.bitDepthC.toNat ∧ r.bitDepthC.toNat ≤ 16)) :
    wpBits p r = .error .wpPrecond := by
  have hdepth : wpDepthCheck r (wpCoded r) = .error .wpPrecond := if_pos ⟨hne, hd⟩
  rw [wpBits_of_not_combined (not_combined_of_wpCoded_ne_nil hne), hdepth]
  rfl

/-- Entries with a depth in 1..16 are coded as the fields of the table (43_weighted_pred.md R192-R197). -/
theorem wpBits_of_goodDepth (hd : 1 ≤ r.bitDepthC.toNat ∧ r.bitDepthC.toNat ≤ 16) :
    wpBits p r = concatCodes ((wpFields p r).map Field.code) := by
  have hdepth : wpDepthCheck r (wpCoded r) = .ok () := if_neg fun hbad => hbad.2 hd
  rw [wpBits_of_not_combined (not_combined_of_wpCoded_ne_nil hne), hdepth, wpTable_eq p r hne]
  rfl

end

/-- Settles O40: the depth check comes before every code and answers `WP_PRECOND`. -/
theorem wpPreconditionRaises : Obligations.WpPreconditionRaises := by
  rintro s r ⟨hf, hv⟩ hr hne hd
  apply raises_of_codeOf .wpPrecond hf
  rw [codeOf_wp hv hr, wpBits_of_badDepth hne hd]

/-- Settles O41: WP answers `WP_PRECOND`, the empty output, or the fields of the table. -/
theorem wpTableForm : Obligations.WpTableForm := by
  rintro s r ⟨hf, hv⟩ hr
  refine ⟨fun hc => raises_of_codeOf .wpPrecond hf ?_, fun hc hnil => outputs_of_codeOf hf ?_,
    fun _ hne h1 h16 => codes_of_codeOf hf ?_⟩
  · rw [codeOf_wp hv hr, wpBits_of_combined hc]
  · rw [codeOf_wp hv hr, wpBits_of_nil hc hnil]
  · rw [codeOf_wp hv hr, wpBits_of_goodDepth hne ⟨h1, h16⟩]

end Sys2Proof.Machine
end

section
/-! SL (44_scaling_list.md R210-R217). -/

namespace Sys2Proof.Machine

open Sys2Proof.Safety

/-- Settles O42: SL codes the fields of its lists, since a well-shaped record is coded by `SLBITS`, and `SLBITS` is the
codes of those fields in order. -/
theorem slListsForm : Obligations.SlListsForm := by
  intro s r ⟨hfault, hvalid⟩ hwf hread hshape
  apply codes_of_codeOf hfault
  calc codeOf .sl s
    _ = slBits s.params r := codeOf_sl hvalid hread hshape
    _ = concatCodes ((slFields s.params r).map Field.code) := slBits_eq hwf r

end Sys2Proof.Machine
end

section
/-! The frame of a command, and the faulted block (60_exceptions.md R232, R233, R235, R236). -/

namespace Sys2Proof.Machine

open Sys2Proof.Safety

/-! ### Commands -/

/-- On a block that is not faulted the completion of a command has two shapes: an append within the sink's counter, or
fault entry. -/
theorem State.complete_append_or_faultEntry {s : State} (hf : s.status.fault = false) (opc : BitVec 8) (r : Code) :
    (∃ out, s.sink.length + out.length ≤ sinkMaxBits ∧ s.complete opc r = s.append out) ∨
    (∃ c, s.complete opc r = s.faultEntry c opc) := by
  rcases s.complete_cases opc r with ⟨hfault, -⟩ | ⟨-, c, -, he⟩ | ⟨-, out, -, hfit, he⟩ | ⟨-, out, -, -, he⟩
  · rw [hf] at hfault
    contradiction
  · exact .inr ⟨c, he⟩
  · exact .inl ⟨out, hfit, he⟩
  · exact .inr ⟨.sinkOverflow, he⟩

/-- The opcode field of a word that decodes is the opcode of its command (30_encoding.md R63). -/
theorem opcField_of_decode {w : Word} {i : Instr} (h : decode w = .ok i) : opcField w = i.opcode := by
  obtain ⟨hopc, -⟩ := decode_fields h
  exact BitVec.eq_of_toNat_eq ((opcField_toNat w).trans hopc)

/-- A CMD write of any word, legal or not, is the completion of some answer under the word's own opcode field. -/
theorem commandWrite_eq_complete (w : Word) (s : State) :
    ∃ r, commandWrite w s = .next (s.complete (opcField w) r) := by
  cases hd : decode w with
  | error e => exact ⟨.error .illegalCommand, by simp only [commandWrite, hd]⟩
  | ok i => exact ⟨codeOf i s, by simp only [commandWrite, hd, exec_eq, opcField_of_decode hd]⟩

/-- Settles O10: every command and every CMD write is a completion, and a completion appends or makes fault entry. -/
theorem commandAppendsOrFaults : Obligations.CommandAppendsOrFaults := by
  refine ⟨fun i s hf => ?_, fun s w rest hh hf => ?_⟩
  · simp only [Raises, exec_eq, ← faultEntry_eq]
    obtain ⟨out, hfit, he⟩ | ⟨c, he⟩ := State.complete_append_or_faultEntry hf i.opcode (codeOf i s)
    · exact .inl ⟨out, hfit, congrArg _ he⟩
    · exact .inr ⟨c, congrArg _ he⟩
  · obtain ⟨r, hr⟩ := commandWrite_eq_complete w { s with host := rest }
    rw [step_of_command hh, hr]
    obtain ⟨out, hfit, he⟩ | ⟨c, he⟩ :=
      State.complete_append_or_faultEntry (s := { s with host := rest }) hf (opcField w) r
    · exact .inl ⟨out, hfit, congrArg _ he⟩
    · exact .inr ⟨c, congrArg _ he⟩

/-! ### STATUS -/

/-- The only two interactions that can change STATUS: reset, and a CMD write while the block is not faulted. -/
theorem status_kept_or_reset_or_command {s t : State} (h : step s = .next t) :
    t.status = s.status ∨ (∃ rest, s.host = .reset :: rest) ∨
    (s.status.fault = false ∧ ∃ w rest, s.host = .write s.params.base 4 w :: rest) := by
  rcases step_cases h with rfl | ⟨op, rest, hh, hop⟩
  · exact .inl rfl
  · rcases hop with ⟨w, opc, r, rfl, rfl⟩ | ⟨v, -, rfl⟩ | ⟨v, -, rfl⟩ | ⟨v, -, rfl⟩ | ⟨a, z, v, d, -, rfl⟩ |
      ⟨rfl, -⟩ | ⟨out, -, -, rfl⟩ | ⟨k, r, -, rfl⟩
    · cases hf : s.status.fault with
      | true => exact .inl (by rw [State.complete_of_faulted (s := { s with host := rest }) hf])
      | false => exact .inr (.inr ⟨rfl, w, rest, hh⟩)
    · exact .inl rfl
    · exact .inl rfl
    · exact .inl rfl
    · exact .inl rfl
    · exact .inr (.inl ⟨rest, hh⟩)
    · exact .inl rfl
    · exact .inl rfl

/-- Settles O12: a step that changes STATUS served a reset, or a CMD write on a block that was not faulted. -/
theorem onlyResetClearsFault : Obligations.OnlyResetClearsFault := by
  intro s t h
  obtain hkept | hreset | ⟨hf, hcmd⟩ := status_kept_or_reset_or_command h
  · exact ⟨fun _ hne => absurd hkept hne, fun hne => absurd hkept hne⟩
  · exact ⟨fun _ _ => hreset, fun _ => .inl hreset⟩
  · exact ⟨fun hfault => by rw [hf] at hfault; contradiction, fun _ => .inr hcmd⟩

/-! ### The faulted block -/

/-- A host write that reaches a register is next. -/
theorem step_of_write {s : State} {addr : Nat} {v : Word} {rest : List HostOp} {r : Reg}
    (h : s.host = .write addr 4 v :: rest) (hr : regAt s.params addr 4 = some r) :
    step s = writeReg { s with host := rest } v r := by
  simp only [step, h, hostStep, hr]

/-- A host read that reaches a register is next. -/
theorem step_of_read {s : State} {addr : Nat} {rest : List HostOp} {r : Reg}
    (h : s.host = .read addr 4 :: rest) (hr : regAt s.params addr 4 = some r) :
    step s = .next (State.readReg { s with host := rest } r) := by
  simp only [step, h, hostStep, hr]

/-- The address of OPA (10_state.md R22). -/
theorem regAt_opa (p : Params) : regAt p (p.base + 4) 4 = some .opa := by
  simp [regAt_eq_some]

/-- The address of OPB (10_state.md R22). -/
theorem regAt_opb (p : Params) : regAt p (p.base + 8) 4 = some .opb := by
  simp [regAt_eq_some]

/-- The address of STATUS (10_state.md R22). -/
theorem regAt_status (p : Params) : regAt p (p.base + 12) 4 = some .status := by
  simp [regAt_eq_some]

/-- While the block is faulted no command runs. -/
theorem exec_of_faulted {s : State} (hf : s.status.fault = true) (i : Instr) : exec i s = .next s := by
  rw [exec_eq, State.complete_of_faulted hf]

/-- While the block is faulted a CMD write of any word has no effect. -/
theorem commandWrite_of_faulted {s : State} (hf : s.status.fault = true) (w : Word) : commandWrite w s = .next s := by
  obtain ⟨r, hr⟩ := commandWrite_eq_complete w s
  rw [hr, State.complete_of_faulted hf]

/-- Settles O11: the gate on STATUS.FAULT stands in the completion of a command, so every CMD write meets it and no
access of another register does. -/
theorem faultedBlockIgnoresCommands : Obligations.FaultedBlockIgnoresCommands := by
  intro s hf
  refine ⟨exec_of_faulted hf, fun w rest hh => ?_, fun v rest hh => ?_, fun v rest hh => ?_, fun rest hh => ?_⟩
  · exact (step_of_command hh).trans (commandWrite_of_faulted (s := { s with host := rest }) hf w)
  · exact step_of_write hh (regAt_opa s.params)
  · exact step_of_write hh (regAt_opb s.params)
  · exact step_of_read hh (regAt_status s.params)

end Sys2Proof.Machine
end

section
/-! Reset and the operand registers (70_reset_and_hazards.md R260, R261, R264). -/

namespace Sys2Proof.Machine

open Sys2Proof.Safety

/-! ### Reset -/

/-- The reset input is served at once. -/
theorem step_of_reset {s : State} {rest : List HostOp} (h : s.host = .reset :: rest) :
    step s = .next (State.assertReset { s with host := rest }) := by
  simp only [step, h, hostStep]

/-- A cleared STATUS reads as zero (10_state.md R32). -/
@[simp] theorem Status.word_clear : Status.clear.word = 0x00000000 := by decide

/-- Settles O9: reset is one assertion of the reset input on the state with its interaction taken off; and by the frame
of STATUS a step that clears FAULT is a reset. -/
theorem resetClearsValidBitsAndStatus : Obligations.ResetClearsValidBitsAndStatus := by
  refine ⟨⟨rfl, rfl, Status.word_clear, rfl⟩, fun s rest hh => ?_, fun s t h hf ht => ?_⟩
  · exact ⟨_, step_of_reset hh, rfl, rfl, rfl, Status.word_clear, rfl, rfl, rfl, rfl, rfl⟩
  · have hchanged : t.status ≠ s.status := fun heq => by
      rw [heq, hf] at ht
      contradiction
    obtain ⟨hreset, -⟩ := onlyResetClearsFault s t h
    exact hreset hf hchanged

/-! ### The operand registers -/

/-- The only three interactions that can change an operand register: reset, and a host write of OPA or of OPB, which
leaves the other one. -/
theorem operands_kept_or_reset_or_written {s t : State} (h : step s = .next t) :
    (t.opa = s.opa ∧ t.opb = s.opb) ∨ (∃ rest, s.host = .reset :: rest) ∨
    (t.opb = s.opb ∧ ∃ v rest, s.host = .write (s.params.base + 4) 4 v :: rest) ∨
    (t.opa = s.opa ∧ ∃ v rest, s.host = .write (s.params.base + 8) 4 v :: rest) := by
  rcases step_cases h with rfl | ⟨op, rest, hh, hop⟩
  · exact .inl ⟨rfl, rfl⟩
  · rcases hop with ⟨w, opc, r, -, rfl⟩ | ⟨v, rfl, rfl⟩ | ⟨v, rfl, rfl⟩ | ⟨v, -, rfl⟩ | ⟨a, z, v, d, -, rfl⟩ |
      ⟨rfl, -⟩ | ⟨out, -, -, rfl⟩ | ⟨k, r, -, rfl⟩
    · obtain ⟨-, hopa, hopb, -⟩ := State.complete_frame { s with host := rest } opc r
      exact .inl ⟨hopa, hopb⟩
    · exact .inr (.inr (.inl ⟨rfl, v, rest, hh⟩))
    · exact .inr (.inr (.inr ⟨rfl, v, rest, hh⟩))
    · exact .inl ⟨rfl, rfl⟩
    · exact .inl ⟨rfl, rfl⟩
    · exact .inr (.inl ⟨rest, hh⟩)
    · exact .inl ⟨rfl, rfl⟩
    · exact .inl ⟨rfl, rfl⟩

/-- A CMD write of any word leaves both operand registers: it is a completion, which writes neither. -/
theorem operands_kept_of_command {s t : State} {w : Word} {rest : List HostOp}
    (hh : s.host = .write s.params.base 4 w :: rest) (h : step s = .next t) : t.opa = s.opa ∧ t.opb = s.opb := by
  obtain ⟨r, hr⟩ := commandWrite_eq_complete w { s with host := rest }
  rw [step_of_command hh, hr] at h
  cases h
  obtain ⟨-, hopa, hopb, -⟩ := State.complete_frame { s with host := rest } (opcField w) r
  exact ⟨hopa, hopb⟩

/-- Settles O13: the interaction served decides which operand registers can have changed. -/
theorem operandsPersist : Obligations.OperandsPersist := by
  intro s t h
  refine ⟨fun hne => ?_, fun hne => ?_, fun w rest hh => operands_kept_of_command hh h⟩
  · obtain ⟨hopa, -⟩ | hreset | ⟨-, hwrite⟩ | ⟨hopa, -⟩ := operands_kept_or_reset_or_written h
    · exact absurd hopa hne
    · exact .inl hreset
    · exact .inr hwrite
    · exact absurd hopa hne
  · obtain ⟨-, hopb⟩ | hreset | ⟨hopb, -⟩ | ⟨-, hwrite⟩ := operands_kept_or_reset_or_written h
    · exact absurd hopb hne
    · exact .inl hreset
    · exact absurd hopb hne
    · exact .inr hwrite

end Sys2Proof.Machine
end

section
/-! The command word and its row of the opcode table (30_encoding.md R60-R63). -/

namespace Sys2Proof.Machine

open Sys2Proof.Safety

/-! ### The word of a command -/

/-- The word of a well-formed command as a number: the opcode in bits 7:0 and the immediate above it (30_encoding.md R60,
R61). -/
theorem encode_toNat {i : Instr} (h : i.wellFormed = true) : (encode i).toNat = i.opcode.toNat + 256 * i.imm := by
  have himm : i.imm < 64 := by
    cases i with
    | fixed n | egesc n => simpa [Instr.wellFormed, Instr.imm] using h
    | flag | uvlc | svlc | tu | eglvl | rps | epo | wp | sl => decide
  have hopc : i.opcode.toNat < 2 ^ 8 := i.opcode.isLt
  have hshift : (BitVec.ofNat 32 i.imm <<< 8).toNat = i.imm <<< 8 := by
    rw [BitVec.toNat_shiftLeft, BitVec.toNat_ofNat, Nat.shiftLeft_eq, Nat.shiftLeft_eq]
    omega
  have hext : (i.opcode.zeroExtend 32).toNat = i.opcode.toNat := by
    rw [BitVec.toNat_setWidth]
    omega
  rw [encode, BitVec.toNat_or, hext, hshift, Nat.or_comm, ← Nat.shiftLeft_add_eq_or_of_lt hopc, Nat.shiftLeft_eq]
  omega

/-- A command that a word decodes to is well formed: an immediate is a 6-bit field (30_encoding.md R61). -/
theorem wellFormed_of_decode {w : Word} {i : Instr} (h : decode w = .ok i) : i.wellFormed = true := by
  obtain ⟨-, hbits⟩ := decode_fields h
  cases i with
  | fixed n | egesc n =>
    obtain ⟨-, hn⟩ := hbits
    simp only [Instr.wellFormed, decide_eq_true_eq]
    omega
  | flag | uvlc | svlc | tu | eglvl | rps | epo | wp | sl => rfl

/-- Above the opcode, a word that decodes holds the immediate and nothing else (30_encoding.md R61, R62). -/
theorem imm_of_decode {w : Word} {i : Instr} (h : decode w = .ok i) : i.imm = w.toNat / 256 := by
  obtain ⟨-, hbits⟩ := decode_fields h
  cases i with
  | fixed n | egesc n =>
    obtain ⟨hres, hn⟩ := hbits
    rw [Instr.imm]
    omega
  | flag | uvlc | svlc | tu | eglvl | rps | epo | wp | sl => exact hbits.symm

/-- Settles O3: opcode and immediate are all that a word that decodes holds, and they are what `encode` puts together. -/
theorem encodeOfDecode : Obligations.EncodeOfDecode := by
  intro w i h
  obtain ⟨hopc, -⟩ := decode_fields h
  have hwf := wellFormed_of_decode h
  refine ⟨BitVec.eq_of_toNat_eq ?_, hwf⟩
  rw [encode_toNat hwf, imm_of_decode h, ← hopc]
  exact Nat.mod_add_div _ _

/-- The word of a well-formed command, written as its number. -/
theorem encode_eq_ofNat {i : Instr} (h : i.wellFormed = true) :
    encode i = BitVec.ofNat 32 (i.opcode.toNat + 256 * i.imm) := by
  rw [← encode_toNat h, BitVec.ofNat_toNat, BitVec.setWidth_eq]

/-- Settles O2: the word of FIXED or EGESC is its opcode plus 256 times its immediate, which decodes; the other nine words
are constants. -/
theorem decodeOfEncode : Obligations.DecodeOfEncode := by
  intro i h
  cases i with
  | fixed n =>
    rw [encode_eq_ofNat h]
    exact decode_wordFixed (of_decide_eq_true h)
  | egesc n =>
    rw [encode_eq_ofNat h]
    exact decode_wordEgesc (of_decide_eq_true h)
  | flag | uvlc | svlc | tu | eglvl | rps | epo | wp | sl => decide

/-- Settles O1: sixteen closed words. -/
theorem writtenWordsDecode : Obligations.WrittenWordsDecode := by
  unfold Obligations.WrittenWordsDecode
  decide

/-! ### The row of a command -/

/-- A row as its opcode determines it: `match` is the opcode, and `mask` is the one of format CN for `FIXED` and `EGESC`
and of format C0 for the others (30_encoding.md R60, R63). -/
theorem row_eq (i : Instr) :
    row i = (i.opcode.zeroExtend 32, if i.opcode = 0x01 ∨ i.opcode = 0x07 then 0xFFFFC0FF else 0xFFFFFFFF) := by
  cases i with
  | fixed | flag | uvlc | svlc | tu | eglvl | egesc | rps | epo | wp | sl => rfl

/-- The mask of format C0 hides no bit (30_encoding.md R62, R63). -/
theorem maskC0_iff (w m : Word) : w &&& 0xFFFFFFFF = m ↔ w = m := by
  rw [show (0xFFFFFFFF : Word) = BitVec.allOnes 32 from rfl, BitVec.and_allOnes]

/-- The opcode field of an opcode alone. -/
theorem opcField_zeroExtend (m : BitVec 8) : opcField (m.zeroExtend 32) = m := by
  apply BitVec.eq_of_toNat_eq
  rw [opcField_toNat, BitVec.toNat_setWidth]
  omega

/-- A word that selects a row has the row's opcode in bits 7:0. -/
theorem opcField_of_selects {w : Word} {i : Instr} (h : w &&& (row i).2 = (row i).1) : opcField w = i.opcode := by
  rw [row_eq] at h
  dsimp only at h
  split at h
  · exact ((maskCN_iff w _).mp h).1
  · rw [(maskC0_iff w _).mp h, opcField_zeroExtend]

/-- A row of format CN: the word selects it and carries the immediate `n` exactly where bits 7:0 are the opcode, bits
31:14 are 0 and bits 13:8 are `n` (30_encoding.md R61, R62). -/
theorem selectsCN_iff (w : Word) (m : BitVec 8) (n : Nat) :
    (w &&& 0xFFFFC0FF = m.zeroExtend 32 ∧ n = w.toNat / 256 % 64) ↔
      opcField w = m ∧ w.extractLsb' 14 18 = 0 ∧ n = immField w := by
  rw [maskCN_iff, immField_eq, and_assoc, opcField]

/-- A word decodes to a command exactly where it selects the command's row and carries its immediate (30_encoding.md
R63). -/
theorem decode_eq_ok_iff (w : Word) (i : Instr) :
    decode w = .ok i ↔ w &&& (row i).2 = (row i).1 ∧ immAgrees w i := by
  have hCN := selectsCN_iff w i.opcode
  cases i with
  | fixed n | egesc n =>
    refine Iff.trans ?_ (hCN n).symm
    constructor
    · intro h
      obtain ⟨-, hres, hn⟩ := decode_fields h
      exact ⟨opcField_of_decode h, (reservedCN_iff w).mpr hres, hn.trans (immField_eq w).symm⟩
    · rintro ⟨hopc, hres, rfl⟩
      simp only [decode, hopc, Instr.opcode, decodeCN, hres]
      rfl
  | flag | uvlc | svlc | tu | eglvl | rps | epo | wp | sl =>
    refine Iff.trans ?_ (and_iff_left trivial).symm
    refine Iff.trans ?_ (maskC0_iff w _).symm
    constructor
    · intro h
      exact (encodeOfDecode w _ h).1.symm
    · rintro rfl
      rfl

/-- Settles O4: the rows are told apart by their opcodes, which a word that selects them holds in bits 7:0. -/
theorem wordSelectsItsRow : Obligations.WordSelectsItsRow := by
  refine ⟨decode_eq_ok_iff, fun w i j hi hj => ?_⟩
  have hopc : i.opcode = j.opcode := (opcField_of_selects hi).symm.trans (opcField_of_selects hj)
  rw [row_eq i, row_eq j, hopc]

end Sys2Proof.Machine
end

section
/-! What every step keeps (10_state.md, 20_memory.md, 70_reset_and_hazards.md), and what stops a step. -/

namespace Sys2Proof.Machine

open Sys2Proof.Safety

/-! ### The invariant -/

/-- STATUS as fault entry writes it is legal (60_exceptions.md R231, R232). -/
theorem statusLegal_ofFault (c : Cause) (opc : BitVec 8) : statusLegal (Status.ofFault c opc) :=
  ⟨fun h => absurd h (by simp), fun _ => c.code_bounds⟩

/-- STATUS as reset leaves it is legal (10_state.md R32). -/
theorem statusLegal_clear : statusLegal Status.clear :=
  ⟨fun _ => ⟨rfl, rfl⟩, fun h => absurd h (by simp)⟩

/-- Settles O7: STATUS is clear, sink and store are empty, and the default parameters have their shape. -/
theorem invariantAtReset : Obligations.InvariantAtReset :=
  ⟨statusLegal_clear, by decide, by decide, by decide⟩

/-- The completion of a command keeps the invariant: an append stays within the sink's counter, and fault entry writes a
legal STATUS. -/
theorem Inv_complete {s : State} (h : Inv s) (opc : BitVec 8) (r : Code) : Inv (s.complete opc r) := by
  obtain ⟨hstatus, hsink, hstore, hparams⟩ := h
  rcases s.complete_cases opc r with ⟨-, he⟩ | ⟨-, c, -, he⟩ | ⟨-, out, -, hfit, he⟩ | ⟨-, out, -, -, he⟩ <;> rw [he]
  · exact ⟨hstatus, hsink, hstore, hparams⟩
  · exact ⟨statusLegal_ofFault c opc, hsink, hstore, hparams⟩
  · refine ⟨hstatus, ?_, hstore, hparams⟩
    rwa [State.append_sink, List.length_append]
  · exact ⟨statusLegal_ofFault _ opc, hsink, hstore, hparams⟩

/-- Settles O8, by the cases of a step: each one writes at most one of the four parts of the invariant. -/
theorem stepKeepsInvariant : Obligations.StepKeepsInvariant := by
  intro s t hinv h
  rcases step_cases h with rfl | ⟨op, rest, -, hop⟩
  · exact hinv
  · have hrest : Inv { s with host := rest } := hinv
    obtain ⟨hstatus, hsink, hstore, hparams⟩ := hinv
    rcases hop with ⟨w, opc, r, -, rfl⟩ | ⟨v, -, rfl⟩ | ⟨v, -, rfl⟩ | ⟨v, -, rfl⟩ | ⟨a, z, v, d, -, rfl⟩ |
      ⟨-, rfl⟩ | ⟨out, -, hfit, rfl⟩ | ⟨k, r, -, rfl⟩
    · exact Inv_complete hrest opc r
    · exact hrest
    · exact hrest
    · exact hrest
    · exact hrest
    · exact ⟨statusLegal_clear, hsink, hstore, hparams⟩
    · refine ⟨hstatus, ?_, hstore, hparams⟩
      rwa [List.length_append]
    · exact ⟨hstatus, hsink, s.store.set_wf _ r k.isLt hstore, hparams⟩

/-! ### What a step never rewrites -/

/-- Settles O15, by the cases of a step: the completion and the direct append extend the sink, the read extends the
returned data, and only the record change writes the store. -/
theorem stepNeverRewritesHistory : Obligations.StepNeverRewritesHistory := by
  intro s t h
  have hsame : s.sink <+: s.sink ∧ s.reads <+: s.reads := ⟨List.prefix_rfl, List.prefix_rfl⟩
  rcases step_cases h with rfl | ⟨op, rest, hh, hop⟩
  · exact ⟨hsame.1, hsame.2, rfl, fun hne => absurd rfl hne⟩
  · rcases hop with ⟨w, opc, r, -, rfl⟩ | ⟨v, -, rfl⟩ | ⟨v, -, rfl⟩ | ⟨v, -, rfl⟩ | ⟨a, z, v, d, -, rfl⟩ |
      ⟨-, rfl⟩ | ⟨out, -, -, rfl⟩ | ⟨k, r, rfl, rfl⟩
    · obtain ⟨hparams, -, -, hstore, -, hreads, -, hsink⟩ := State.complete_frame { s with host := rest } opc r
      exact ⟨hsink, ⟨[], by rw [hreads, List.append_nil]⟩, hparams, fun hne => absurd hstore hne⟩
    · exact ⟨hsame.1, hsame.2, rfl, fun hne => absurd rfl hne⟩
    · exact ⟨hsame.1, hsame.2, rfl, fun hne => absurd rfl hne⟩
    · exact ⟨hsame.1, hsame.2, rfl, fun hne => absurd rfl hne⟩
    · exact ⟨hsame.1, List.prefix_append _ _, rfl, fun hne => absurd rfl hne⟩
    · exact ⟨hsame.1, hsame.2, rfl, fun hne => absurd rfl hne⟩
    · exact ⟨List.prefix_append _ _, hsame.2, rfl, fun hne => absurd rfl hne⟩
    · exact ⟨hsame.1, hsame.2, rfl, fun _ => ⟨k, r, rest, hh⟩⟩

/-! ### A run of the faulted block -/

/-- The host interactions that neither reset the block nor write the sink directly. -/
def Harmless (op : HostOp) : Prop :=
  (∃ a z v, op = .write a z v) ∨ (∃ a z, op = .read a z) ∨ ∃ h r, op = .setRecord h r

/-- A step of the faulted block over such an interaction keeps the sink and STATUS, and leaves no other interaction
pending (60_exceptions.md R235). -/
theorem faulted_step_keeps {s t : State} (hf : s.status.fault = true) (hops : ∀ op ∈ s.host, Harmless op)
    (h : step s = .next t) : t.sink = s.sink ∧ t.status = s.status ∧ ∀ op ∈ t.host, Harmless op := by
  rcases step_cases h with rfl | ⟨op, rest, hh, hop⟩
  · exact ⟨rfl, rfl, hops⟩
  · rw [hh, List.forall_mem_cons] at hops
    obtain ⟨hharmless, hrest⟩ := hops
    rcases hop with ⟨w, opc, r, -, rfl⟩ | ⟨v, -, rfl⟩ | ⟨v, -, rfl⟩ | ⟨v, -, rfl⟩ | ⟨a, z, v, d, -, rfl⟩ |
      ⟨rfl, -⟩ | ⟨out, hsinkOp, -⟩ | ⟨k, r, -, rfl⟩
    · rw [State.complete_of_faulted (s := { s with host := rest }) hf]
      exact ⟨rfl, rfl, hrest⟩
    · exact ⟨rfl, rfl, hrest⟩
    · exact ⟨rfl, rfl, hrest⟩
    · exact ⟨rfl, rfl, hrest⟩
    · exact ⟨rfl, rfl, hrest⟩
    · simp [Harmless] at hharmless
    · obtain rfl | rfl | ⟨v, n, rfl⟩ := hsinkOp <;> simp [Harmless] at hharmless
    · exact ⟨rfl, rfl, hrest⟩

/-- A run that answers a next state after `k + 1` steps answered one after its first. -/
theorem exists_step_of_run {k : Nat} {s t : State} (h : Host.Core.run Sys2Proof.core (k + 1) s = .next t) :
    ∃ u, step s = .next u ∧ Host.Core.run Sys2Proof.core k u = .next t := by
  cases hs : step s with
  | next u => exact ⟨u, rfl, (run_of_step k hs).symm.trans h⟩
  | fault f =>
    have hcore : Sys2Proof.core.step s = .fault f := hs
    simp [Host.Core.run, hcore] at h
  | refused r =>
    have hcore : Sys2Proof.core.step s = .refused r := hs
    simp [Host.Core.run, hcore] at h

/-- Settles O16, by induction on the number of steps: each one keeps the sink, STATUS and the kind of what is pending. -/
theorem faultedRunEmitsNothingMore : Obligations.FaultedRunEmitsNothingMore := by
  intro k
  induction k with
  | zero =>
    intro s t _ _ h
    cases h
    exact ⟨rfl, rfl⟩
  | succ k ih =>
    intro s t hf hops h
    obtain ⟨u, hstep, hrun⟩ := exists_step_of_run h
    obtain ⟨hsink, hstatus, hrest⟩ := faulted_step_keeps hf hops hstep
    obtain ⟨hsink', hstatus'⟩ := ih u t (hstatus ▸ hf) hrest hrun
    exact ⟨hsink'.trans hsink, hstatus'.trans hstatus⟩

/-! ### What stops a step -/

/-- A host write of a register answers a next state: no command word, whatever the state, stops the machine. -/
theorem exists_writeReg_eq_next (s : State) (v : Word) (r : Reg) : ∃ t, writeReg s v r = .next t := by
  cases r with
  | cmd =>
    obtain ⟨c, hc⟩ := commandWrite_eq_complete v s
    exact ⟨_, hc⟩
  | opa | opb | status => exact ⟨_, rfl⟩

/-- A direct append by the host is never refused. -/
theorem hostAppend_ne_refused (s : State) (out : Bits) (r : Refusal) : hostAppend s out ≠ .refused r := by
  obtain ⟨he, -⟩ | ⟨he, -⟩ := hostAppend_cases s out <;> rw [he] <;> nofun

/-- A direct append by the host faults only beyond the sink's counter (log entry 10). -/
theorem overflow_of_hostAppend_fault {s : State} {out : Bits} {f : Fault} (h : hostAppend s out = .fault f) :
    2 ^ 32 - 1 < s.sink.length + out.length := by
  obtain ⟨-, hover⟩ | ⟨he, -⟩ := hostAppend_cases s out
  · exact hover
  · rw [he] at h
    cases h

/-- The host interactions that are refused: a bus access that reaches no register, and a direct sink write of a width
outside 1..32 (log entries 11, 12). -/
theorem hostStep_eq_refused_iff (op : HostOp) (s : State) (r : Refusal) :
    hostStep op s = .refused r ↔
      (r = .hostAccess ∧ ∃ addr size, ((∃ v, op = .write addr size v) ∨ op = .read addr size) ∧
        regAt s.params addr size = none) ∨
      (r = .sinkWriteWidth ∧ ∃ v n, op = .sinkWrite v n ∧ (n = 0 ∨ 32 < n)) := by
  cases op with
  | write addr size v =>
    cases hr : regAt s.params addr size with
    | none => simp [hostStep, hr, eq_comm]
    | some reg =>
      obtain ⟨t, ht⟩ := exists_writeReg_eq_next s v reg
      simp [hostStep, hr, ht]
  | read addr size =>
    cases hr : regAt s.params addr size with
    | none => simp [hostStep, hr, eq_comm]
    | some reg => simp [hostStep, hr]
  | sinkWrite v n =>
    by_cases hn : n = 0 ∨ 32 < n
    · simp [hostStep, sinkMaxNbits, hn, eq_comm]
    · simp [hostStep, sinkMaxNbits, hn, hostAppend_ne_refused]
  | sinkAlignZeros | sinkAlignOne => simp [hostStep, hostAppend_ne_refused]
  | reset | setRecord => simp [hostStep]

/-- The host interactions that fault: direct appends beyond the sink's counter (log entry 10). -/
theorem overflow_of_hostStep_fault {op : HostOp} {s : State} {f : Fault} (h : hostStep op s = .fault f) :
    (∃ v n, op = .sinkWrite v n ∧ 2 ^ 32 - 1 < s.sink.length + n) ∨
    ((op = .sinkAlignZeros ∨ op = .sinkAlignOne) ∧ 2 ^ 32 - 1 < s.sink.length + 8) := by
  cases op with
  | write addr size v =>
    cases hr : regAt s.params addr size with
    | none => simp [hostStep, hr] at h
    | some reg =>
      obtain ⟨t, ht⟩ := exists_writeReg_eq_next s v reg
      simp [hostStep, hr, ht] at h
  | read addr size => cases hr : regAt s.params addr size <;> simp [hostStep, hr] at h
  | sinkWrite v n =>
    rw [hostStep] at h
    split at h
    · cases h
    · have hover := overflow_of_hostAppend_fault h
      rw [bitsMsb_length] at hover
      exact .inl ⟨v, n, rfl, hover⟩
  | sinkAlignZeros =>
    have hover := overflow_of_hostAppend_fault h
    have hlen := (alignZerosBits_spec s.pos).1
    exact .inr ⟨.inl rfl, by omega⟩
  | sinkAlignOne =>
    have hover := overflow_of_hostAppend_fault h
    have hlen := (alignOneBits_spec s.pos).1
    exact .inr ⟨.inr rfl, by omega⟩
  | reset | setRecord => cases h

/-- Settles O47: with nothing pending a step answers the state itself, and otherwise it serves the first interaction. -/
theorem onlyHostMisuseStops : Obligations.OnlyHostMisuseStops := by
  intro s
  cases hh : s.host with
  | nil => simp [step, hh]
  | cons op rest =>
    have hstep : step s = hostStep op { s with host := rest } := by simp only [step, hh]
    refine ⟨fun r => ?_, fun f h => ?_⟩
    · rw [hstep, hostStep_eq_refused_iff]
      simp only [regAt_eq_none, List.cons.injEq]
      constructor
      · rintro (⟨rfl, addr, size, hop, haddr⟩ | ⟨rfl, v, n, hop, hn⟩)
        · exact .inl ⟨rfl, rest, addr, size, by simpa using hop, haddr⟩
        · exact .inr ⟨rfl, rest, v, n, ⟨hop, rfl⟩, hn⟩
      · rintro (⟨rfl, _, addr, size, hop, haddr⟩ | ⟨rfl, _, v, n, ⟨hop, -⟩, hn⟩)
        · exact .inl ⟨rfl, addr, size, hop.imp (fun ⟨v, hv, _⟩ => ⟨v, hv⟩) And.left, haddr⟩
        · exact .inr ⟨rfl, v, n, hop, hn⟩
    · obtain ⟨v, n, rfl, hover⟩ | ⟨hop, hover⟩ := overflow_of_hostStep_fault (hstep ▸ h)
      · exact .inl ⟨rest, v, n, rfl, hover⟩
      · exact .inr ⟨rest, hop.imp (congrArg (· :: rest)) (congrArg (· :: rest)), hover⟩

end Sys2Proof.Machine
end

section
/-! What a command's answer and its completion do not depend on (10_state.md R23, R24, 70_reset_and_hazards.md R269). -/

namespace Sys2Proof.Machine

open Sys2Proof.Safety

/-- Settles O5: a CMD write of a word that decodes is its command's `exec`. -/
theorem stepRunsTheDecodedCommand : Obligations.StepRunsTheDecodedCommand := by
  intro s w i rest hh hd
  rw [step_of_command hh, commandWrite, hd]

/-- Settles O19: the read of OPA comes first in every command. -/
theorem unwrittenOpaRaises : Obligations.UnwrittenOpaRaises := needsOpa

/-! ### The bit position -/

/-- Fault entry does not leave a block that is not faulted as it was. -/
theorem State.faultEntry_ne_of_not_faulted {s t : State} (ht : t.status.fault = false) (c : Cause) (opc : BitVec 8) :
    s.faultEntry c opc ≠ t := by
  rintro rfl
  cases ht

/-- A command's answer on a block that is not faulted, read off the fault it raises: the fault is the answer's, or
`SINK_OVERFLOW` for an output that does not fit. -/
theorem codeOf_of_raises {i : Instr} {s : State} {code : BitVec 8} (hf : s.status.fault = false)
    (h : Raises i s code) :
    (∃ c, codeOf i s = .error c ∧ code = c.code) ∨
    (∃ out, codeOf i s = .ok out ∧ 2 ^ 32 - 1 < s.sink.length + out.length ∧ code = 0x0D) := by
  rw [Raises, exec_eq, Host.Outcome.next.injEq] at h
  have hcode : code = (s.complete i.opcode (codeOf i s)).status.fcode := by rw [h]; rfl
  rcases s.complete_cases i.opcode (codeOf i s) with ⟨hfault, -⟩ | ⟨-, c, hc, he⟩ | ⟨-, out, -, -, he⟩ |
    ⟨-, out, ho, hover, he⟩
  · rw [hf] at hfault
    cases hfault
  · exact .inl ⟨c, hc, by rw [hcode, he]; rfl⟩
  · have hfault : (s.append out).status.fault = true := by rw [← he, h]; rfl
    rw [State.append_status, hf] at hfault
    cases hfault
  · exact .inr ⟨out, ho, hover, by rw [hcode, he]; rfl⟩

/-- A command's answer on a block that is not faulted, read off a next state without a fault: it is what the sink was
extended by. -/
theorem codeOf_of_exec {i : Instr} {s t : State} (hf : s.status.fault = false) (h : exec i s = .next t)
    (ht : t.status.fault = false) : ∃ out, codeOf i s = .ok out ∧ t = s.append out := by
  rw [exec_eq, Host.Outcome.next.injEq] at h
  rcases s.complete_cases i.opcode (codeOf i s) with ⟨hfault, -⟩ | ⟨-, c, -, he⟩ | ⟨-, out, ho, -, he⟩ |
    ⟨-, out, -, -, he⟩
  · rw [hf] at hfault
    cases hfault
  · exact absurd (he.symm.trans h) (State.faultEntry_ne_of_not_faulted ht _ _)
  · exact ⟨out, ho, h.symm.trans he⟩
  · exact absurd (he.symm.trans h) (State.faultEntry_ne_of_not_faulted ht _ _)

/-- Settles O17: the answer of a command but EPO is the same on the empty sink, and an output that overflows the empty
sink overflows every other. -/
theorem onlyEpoDependsOnThePosition : Obligations.OnlyEpoDependsOnThePosition := by
  intro i s hi hf
  have hcode : codeOf i { s with sink := [] } = codeOf i s := codeOf_sink i s [] hi
  refine ⟨fun out h => ?_, fun code h => ?_⟩
  · obtain ⟨out', ho, he⟩ := codeOf_of_exec (s := { s with sink := [] }) hf h hf
    obtain rfl : out = out' := congrArg State.sink he
    exact outputs_of_codeOf hf (hcode.symm.trans ho)
  · obtain ⟨c, hc, rfl⟩ | ⟨out, ho, hover, rfl⟩ := codeOf_of_raises (s := { s with sink := [] }) hf h
    · exact raises_of_codeOf c hf (hcode.symm.trans hc)
    · obtain ⟨-, hoverflow⟩ := outputs_of_codeOf hf (hcode.symm.trans ho)
      exact hoverflow (hover.trans_le (by simp))

/-! ### Parts of the state the completion does not touch -/

/-- An update of the state that the sink, STATUS, an append and fault entry do not see passes through the completion of a
command. -/
theorem State.complete_commutes (f : State → State) (s : State) (opc : BitVec 8) (r : Code)
    (hstatus : (f s).status = s.status) (hsink : (f s).sink = s.sink)
    (happend : ∀ out, f (s.append out) = (f s).append out)
    (hfault : ∀ c, f (s.faultEntry c opc) = (f s).faultEntry c opc) :
    (f s).complete opc r = f (s.complete opc r) := by
  rcases s.complete_cases opc r with ⟨hf, he⟩ | ⟨hf, c, rfl, he⟩ | ⟨hf, out, rfl, hfit, he⟩ | ⟨hf, out, rfl, hover, he⟩
    <;> rw [he] <;> rw [← hstatus] at hf
  · exact State.complete_of_faulted hf opc r
  · rw [hfault, State.complete_error hf]
  · rw [happend, State.complete_ok hf opc (hsink ▸ hfit)]
  · rw [hfault, State.complete_overflow hf opc (hsink ▸ hover)]

/-- The completion passes over OPB. -/
theorem State.complete_with_opb (s : State) (o : Operand) (opc : BitVec 8) (r : Code) :
    State.complete { s with opb := o } opc r = { s.complete opc r with opb := o } :=
  State.complete_commutes (fun s => { s with opb := o }) s opc r rfl rfl (fun _ => rfl) (fun _ => rfl)

/-- The completion passes over both operand registers. -/
theorem State.complete_with_operands (s : State) (a b : Operand) (opc : BitVec 8) (r : Code) :
    State.complete { s with opa := a, opb := b } opc r = { s.complete opc r with opa := a, opb := b } :=
  State.complete_commutes (fun s => { s with opa := a, opb := b }) s opc r rfl rfl (fun _ => rfl) (fun _ => rfl)

/-- The completion passes over the descriptor store. -/
theorem State.complete_with_store (s : State) (m : Memory) (opc : BitVec 8) (r : Code) :
    State.complete { s with store := m } opc r = { s.complete opc r with store := m } :=
  State.complete_commutes (fun s => { s with store := m }) s opc r rfl rfl (fun _ => rfl) (fun _ => rfl)

/-! ### OPB -/

/-- The answer of a command but TU does not depend on OPB (30_encoding.md R64). -/
theorem codeOf_opb (i : Instr) (s : State) (o : Operand) (hi : i ≠ .tu) :
    codeOf i { s with opb := o } = codeOf i s := by
  cases i with
  | tu => exact absurd rfl hi
  | fixed | flag | uvlc | svlc | eglvl | egesc | rps | epo | wp | sl => rfl

/-- Settles O20: a command is a completion, which never writes OPB, of an answer which only TU's makes depend on it. -/
theorem onlyTuReadsOpb : Obligations.OnlyTuReadsOpb := by
  refine ⟨fun i s t h => ?_, fun i s t o hi h => ?_⟩
  · rw [exec_eq, Host.Outcome.next.injEq] at h
    obtain ⟨-, -, hopb, -⟩ := s.complete_frame i.opcode (codeOf i s)
    rw [← h, hopb]
  · rw [exec_eq, Host.Outcome.next.injEq] at h
    rw [exec_eq, codeOf_opb i s o hi, State.complete_with_opb, h]

/-! ### Unwritten operand registers -/

/-- A register is the same as itself. -/
theorem sameOperand_refl (a : Operand) : sameOperand a a := ⟨rfl, fun _ => rfl⟩

/-- Two states are the same but for unwritten values where one is the other with such registers in the place of its
own. -/
theorem sameButUnwritten_iff (s t : State) :
    sameButUnwritten s t ↔
      ∃ a b, sameOperand s.opa a ∧ sameOperand s.opb b ∧ t = { s with opa := a, opb := b } := by
  constructor
  · rintro ⟨ha, hb, ht⟩
    exact ⟨t.opa, t.opb, ha, hb, ht⟩
  · rintro ⟨a, b, ha, hb, rfl⟩
    exact ⟨ha, hb, rfl⟩

/-- Two outcomes agree but for unwritten values: the same stop, or next states that are the same but for them. -/
def AgreeButUnwritten : Host.Outcome State Fault Refusal → Host.Outcome State Fault Refusal → Prop
  | .next s, o => ∃ t, o = .next t ∧ sameButUnwritten s t
  | .fault f, o => o = .fault f
  | .refused r, o => o = .refused r

/-- Next states that are the same but for unwritten values agree. -/
theorem AgreeButUnwritten.next {s t : State} (h : sameButUnwritten s t) : AgreeButUnwritten (.next s) (.next t) :=
  ⟨t, rfl, h⟩

section
variable {s : State} {a b : Operand} (ha : sameOperand s.opa a) (hb : sameOperand s.opb b)
include ha hb

/-- The completion of one answer keeps the states the same but for unwritten values. -/
theorem sameButUnwritten_complete (opc : BitVec 8) (r : Code) :
    sameButUnwritten (s.complete opc r) (State.complete { s with opa := a, opb := b } opc r) := by
  obtain ⟨-, hopa, hopb, -⟩ := s.complete_frame opc r
  rw [State.complete_with_operands s a b, sameButUnwritten_iff, hopa, hopb]
  exact ⟨a, b, ha, hb, rfl⟩

/-- A CMD write answers states that are the same but for unwritten values, as no answer sees one (10_state.md R23). -/
theorem commandWrite_agree (w : Word) :
    AgreeButUnwritten (commandWrite w s) (commandWrite w { s with opa := a, opb := b }) := by
  unfold commandWrite
  cases decode w with
  | error e => exact .next (sameButUnwritten_complete ha hb _ _)
  | ok i =>
    have hcode : codeOf i { s with opa := a, opb := b } = codeOf i s := codeOf_same i ⟨ha, hb, rfl⟩
    simp only [exec_eq, hcode]
    exact .next (sameButUnwritten_complete ha hb _ _)

/-- A host write of a register does so too; one of OPA or OPB makes that register the same. -/
theorem writeReg_agree (v : Word) (r : Reg) :
    AgreeButUnwritten (writeReg s v r) (writeReg { s with opa := a, opb := b } v r) := by
  cases r with
  | cmd => exact commandWrite_agree ha hb v
  | opa => exact .next ⟨sameOperand_refl _, hb, rfl⟩
  | opb => exact .next ⟨ha, sameOperand_refl _, rfl⟩
  | status => exact .next ⟨ha, hb, rfl⟩

/-- The read of an operand register returns the value of a written one, and the same free value for an unwritten one
(10_state.md R23). -/
theorem respondOperand_agree {o o' : Operand} (ho : sameOperand o o') :
    sameButUnwritten (s.respondOperand o) (State.respondOperand { s with opa := a, opb := b } o') := by
  obtain ⟨hvalid, hvalue⟩ := ho
  unfold State.respondOperand
  rw [← hvalid]
  split
  · next hv =>
    rw [← hvalue hv]
    exact ⟨ha, hb, rfl⟩
  · exact ⟨ha, hb, rfl⟩

/-- A host read of a register keeps the states the same but for unwritten values. -/
theorem readReg_agree (r : Reg) :
    sameButUnwritten (s.readReg r) (State.readReg { s with opa := a, opb := b } r) := by
  cases r with
  | cmd | status => exact ⟨ha, hb, rfl⟩
  | opa => exact respondOperand_agree ha hb ha
  | opb => exact respondOperand_agree ha hb hb

/-- A direct append by the host sees the sink alone. -/
theorem hostAppend_agree (out : Bits) :
    AgreeButUnwritten (hostAppend s out) (hostAppend { s with opa := a, opb := b } out) := by
  by_cases h : s.sink.length + out.length ≤ sinkMaxBits
  · rw [hostAppend_of_fits h, hostAppend_of_fits (s := { s with opa := a, opb := b }) h]
    exact .next ⟨ha, hb, rfl⟩
  · have hover (u : State) (hu : u.sink = s.sink) : hostAppend u out = .fault .hostSinkOverflow :=
      if_pos (by rw [State.pos, hu]; omega)
    rw [hover s rfl, hover { s with opa := a, opb := b } rfl]
    rfl

/-- A host interaction answers outcomes that agree but for unwritten values. -/
theorem hostStep_agree (op : HostOp) :
    AgreeButUnwritten (hostStep op s) (hostStep op { s with opa := a, opb := b }) := by
  cases op with
  | write addr size v =>
    simp only [hostStep]
    cases regAt s.params addr size with
    | none => rfl
    | some r => exact writeReg_agree ha hb v r
  | read addr size =>
    simp only [hostStep]
    cases regAt s.params addr size with
    | none => rfl
    | some r => exact .next (readReg_agree ha hb r)
  | reset => exact .next ⟨sameOperand_refl _, sameOperand_refl _, rfl⟩
  | sinkWrite v n =>
    by_cases h : n = 0 ∨ sinkMaxNbits < n
    · simp only [hostStep, if_pos h]
      rfl
    · simp only [hostStep, if_neg h]
      exact hostAppend_agree ha hb _
  | sinkAlignZeros | sinkAlignOne => exact hostAppend_agree ha hb _
  | setRecord h r => exact .next ⟨ha, hb, rfl⟩

end

/-- Settles O18: the block is idle in both states, or serves the same interaction in both. -/
theorem unwrittenOperandValueIsInvisible : Obligations.UnwrittenOperandValueIsInvisible := by
  intro s t h
  have hagree : AgreeButUnwritten (step s) (step t) := by
    obtain ⟨a, b, ha, hb, rfl⟩ := (sameButUnwritten_iff s t).mp h
    cases hh : s.host with
    | nil =>
      simp only [step, hh]
      exact .next ⟨ha, hb, by rw [hh]⟩
    | cons op rest =>
      simp only [step, hh]
      exact hostStep_agree (s := { s with host := rest }) ha hb op
  cases hs : step s <;> rwa [hs] at hagree

end Sys2Proof.Machine
end

section
/-! Records that are missing or ill-shaped, and what EPO does with a large table and with trailing zeros (20_memory.md R44,
30_encoding.md R74, 42_entry_point.md R173, R176). -/

namespace Sys2Proof.Machine

open Sys2Proof.Safety

/-! ### Bad descriptors -/

/-- A codec command reads its record from the store once OPA is written. -/
theorem State.named_bind {s : State} {α : Type} (h : s.opa.valid = true) (f : Option Record → Except Cause α) :
    (s.named >>= f) = f (s.store.read s.opa.value.toNat) := by
  rw [State.named_of_valid h]
  rfl

/-- No record, a record of another kind, or an ill-shaped `RpsRecord` (30_encoding.md R74). -/
theorem asRps_of_bad {rec : Option Record} (h : ∀ r, rec = some (.rps r) → r.used.length ≠ r.deltaPoc.length) :
    asRps rec = .error .badDescriptor := by
  match rec with
  | none | some (.epo _) | some (.wp _) | some (.sl _) => rfl
  | some (.rps r) => exact if_neg (by simpa [rpsShapeOk] using h r rfl)

/-- No record, or a record of another kind than EPO's. -/
theorem asEpo_of_bad {rec : Option Record} (h : ∀ r, rec ≠ some (.epo r)) : asEpo rec = .error .badDescriptor := by
  match rec with
  | none | some (.rps _) | some (.wp _) | some (.sl _) => rfl
  | some (.epo r) => exact absurd rfl (h r)

/-- No record, or a record of another kind than WP's. -/
theorem asWp_of_bad {rec : Option Record} (h : ∀ r, rec ≠ some (.wp r)) : asWp rec = .error .badDescriptor := by
  match rec with
  | none | some (.rps _) | some (.epo _) | some (.sl _) => rfl
  | some (.wp r) => exact absurd rfl (h r)

/-- No record, a record of another kind, or an ill-shaped `SlRecord` (30_encoding.md R74). -/
theorem asSl_of_bad {p : Params} {rec : Option Record} (h : ∀ r, rec = some (.sl r) → ¬slShape p r) :
    asSl p rec = .error .badDescriptor := by
  match rec with
  | none | some (.rps _) | some (.epo _) | some (.wp _) => rfl
  | some (.sl r) => exact if_neg ((slShapeOk_iff p r).not.mpr (h r rfl))

/-- The answer of a codec command whose handle names no record it can use. -/
theorem codeOf_of_badDescriptor {i : Instr} {s : State} (hv : s.opa.valid = true)
    (h : badDescriptorFor s.params i (s.store.read s.opa.value.toNat)) : codeOf i s = .error .badDescriptor := by
  cases i with
  | rps => rw [codeOf, State.rpsOperand, State.named_bind hv, asRps_of_bad h]; rfl
  | epo => rw [codeOf, State.epoOperand, State.named_bind hv, asEpo_of_bad h]; rfl
  | wp => rw [codeOf, State.wpOperand, State.named_bind hv, asWp_of_bad h]; rfl
  | sl => rw [codeOf, State.slOperand, State.named_bind hv, asSl_of_bad h]; rfl
  | fixed | flag | uvlc | svlc | tu | eglvl | egesc => exact h.elim

/-- Settles O21: the record is read before anything else is done with it. -/
theorem badDescriptorRaises : Obligations.BadDescriptorRaises := by
  rintro i s ⟨hf, hv⟩ h
  exact raises_of_codeOf .badDescriptor hf (codeOf_of_badDescriptor hv h)

/-! ### EPO -/

/-- A table of more entries than `UE` can count raises `UVLC_RANGE` (42_entry_point.md R176; log entry 15). -/
theorem epoTable_of_countOutOfRange (p : Params) (B0 w : Nat) {off : List Nat} (h : 2 ^ 32 - 2 < off.length) :
    epoTable p B0 w off = .error .uvlcRange := by
  rw [epoTable, ue_of_outOfRange (by omega)]
  rfl

/-- Settles O38: the width fits, so the table is coded, and its count is the first operand. -/
theorem epoCountBeyondUvlcRaises : Obligations.EpoCountBeyondUvlcRaises := by
  intro s r hs hr hm hd hlen hM
  apply raises_of_codeOf .uvlcRange hs.1
  rw [codeOf_epo_of_fitting hs hr hm hd, epoTable_of_countOutOfRange _ _ _ hlen]
  rwa [bitlen_le_iff, epoAdjustedMax_eq]

/-- Zero-size substreams at the end are not coded (42_entry_point.md R173). -/
theorem epoBits_append_zeros {r : EpoRecord} (hm : r.mode = .wavefront) (p : Params) (B0 z : Nat) :
    epoBits p { r with substreamBits := r.substreamBits ++ List.replicate z 0 } B0 = epoBits p r B0 := by
  have hoff : epoOffsets { r with substreamBits := r.substreamBits ++ List.replicate z 0 } = epoOffsets r := by
    simp only [epoOffsets, hm, List.map_append, List.map_replicate, UInt32.toNat_zero, trimZeros_append_zeros]
  simp only [epoBits, hoff]

/-- Settles O39: both records give the same answer, and the completion passes over the store. -/
theorem epoTrailingZerosChangeNothing : Obligations.EpoTrailingZerosChangeNothing := by
  intro s s' t t' r z hr hm ht hr' hs' ht'
  rw [exec_eq, Host.Outcome.next.injEq] at hs' ht'
  have hcode : codeOf .epo t = codeOf .epo s := by
    have hopa : t.opa = s.opa := by rw [ht]
    cases hv : s.opa.valid with
    | false => rw [codeOf_of_opa_unwritten _ hv, codeOf_of_opa_unwritten _ (hopa ▸ hv)]
    | true =>
      rw [codeOf_epo hv hr, codeOf_epo (s := t) (hopa ▸ hv) (hopa ▸ hr'), epoBits_append_zeros hm, ht]
  have hcomplete : t' = { s' with store := t.store } := by
    rw [← ht', hcode, ← hs', ← State.complete_with_store, ← ht]
  rw [hcomplete]
  exact ⟨rfl, rfl⟩

end Sys2Proof.Machine
end

section
/-! The faults each command can raise (60_exceptions.md R247). -/

namespace Sys2Proof.Machine

open Sys2Proof.Safety

/-- `x` raises no fault but those of `P`. -/
def RaisesOnly {α : Type} (P : Cause → Prop) (x : Except Cause α) : Prop := ∀ c, x = .error c → P c

section
variable {P : Cause → Prop}

/-- An answer is no fault. -/
theorem raisesOnly_ok {α : Type} (a : α) : RaisesOnly P (.ok a : Except Cause α) := nofun

/-- A fault of `P`. -/
theorem raisesOnly_error {α : Type} {c : Cause} (h : P c) : RaisesOnly P (.error c : Except Cause α) := by
  rintro _ ⟨⟩
  exact h

/-- `UE` raises `UVLC_RANGE` at most (40_vlc.md R101). -/
theorem raisesOnly_ue (h : P .uvlcRange) (v : Int) : RaisesOnly P (ue v) := by
  intro c hc
  rw [(ue_eq_error.mp hc).2]
  exact h

/-- `SE` raises `SVLC_RANGE` at most (40_vlc.md R103). -/
theorem raisesOnly_se (h : P .svlcRange) (v : Int) : RaisesOnly P (se v) := by
  intro c hc
  rw [(se_eq_error.mp hc).2]
  exact h

/-- `UE` of an operand in range raises nothing (40_vlc.md R101). -/
theorem raisesOnly_ue_of_inRange {v : Int} (h : 0 ≤ v ∧ v ≤ 2 ^ 32 - 2) : RaisesOnly P (ue v) := by
  rw [ue_of_inRange h]
  exact raisesOnly_ok _

/-- Codes in a row raise what one of them raises (60_exceptions.md R234). -/
theorem raisesOnly_concatCodes {cs : List Code} (h : ∀ x ∈ cs, RaisesOnly P x) : RaisesOnly P (concatCodes cs) :=
  fun c hc => h _ (concatCodes_eq_error hc) c rfl

/-- Fields in a row raise what one of them raises. -/
theorem raisesOnly_fields {fs : List Field} (h : ∀ f ∈ fs, RaisesOnly P (Field.code f)) :
    RaisesOnly P (concatCodes (fs.map Field.code)) :=
  raisesOnly_concatCodes (List.forall_mem_map.mpr h)

/-- A bit has no fault. -/
@[simp] theorem raisesOnly_code_bit (b : Bool) : RaisesOnly P (Field.code (.bit b)) := raisesOnly_ok _

/-! ### The primitive codes -/

/-- `FIX` raises `FIXED_LENGTH` at most (40_vlc.md R100). -/
theorem raisesOnly_fix (h : P .fixedLength) (v n : Nat) : RaisesOnly P (fix v n) := by
  by_cases hn : n = 0 ∨ 32 < n
  · rw [fix_of_illegal v hn]
    exact raisesOnly_error h
  · rw [fix_of_legal v (by omega) (by omega)]
    exact raisesOnly_ok _

/-- `TU` raises `TU_RANGE` at most (40_vlc.md R104). -/
theorem raisesOnly_truncatedUnary (h : P .tuRange) (s M : Nat) : RaisesOnly P (truncatedUnary s M) := by
  obtain rfl | hM := M.eq_zero_or_pos
  · exact raisesOnly_ok _
  · obtain hgt | hle := Nat.lt_or_ge M s
    · rw [truncatedUnary_of_gt hM hgt]
      exact raisesOnly_error h
    · rw [truncatedUnary_of_le hM hle]
      exact raisesOnly_ok _

/-- `EGK` raises `EGESC_RANGE` at most (40_vlc.md R105). -/
theorem raisesOnly_egk (h : P .egescRange) (s k : Nat) : RaisesOnly P (egk s k) := by
  by_cases hk : 31 < k ∨ 2 ^ 32 - 2 ^ k ≤ s
  · rw [egk_of_outOfRange hk]
    exact raisesOnly_error h
  · rw [egk_of_inRange egkRun_isEgkLoop (by omega) (by omega)]
    exact raisesOnly_ok _

/-- `EGL` of a 32-bit symbol raises nothing (40_vlc.md R106). -/
theorem raisesOnly_egl {s : Nat} (hs : s < 2 ^ 32) : RaisesOnly P (egl s) := by
  obtain h13 | h13 := Nat.lt_or_ge s 13
  · rw [egl_of_lt h13]
    exact raisesOnly_ok _
  · rw [egl_of_ge egkRun_isEgkLoop h13 hs]
    exact raisesOnly_ok _

/-! ### RPS -/

/-- The fields of RPS are bits and `UE` operands (41_rps.md). -/
theorem raisesOnly_rpsFields (h : P .uvlcRange) (r : RpsRecord) :
    ∀ f ∈ Field.bit r.interRps :: (if r.interRps then rpsInterFields r else rpsExplicitFields r) ++
      (if r.ltEnabled then rpsLongTermFields r else []), RaisesOnly P (Field.code f) := by
  have hue (v : Int) : RaisesOnly P (Field.code (.ue v)) := raisesOnly_ue h v
  have hinter : ∀ f ∈ rpsInterFields r, RaisesOnly P (Field.code f) := by
    rw [rpsInterFields_eq]
    simp only [List.forall_mem_cons, hue, raisesOnly_code_bit, true_and, List.forall_mem_flatMap]
    intro x _
    cases x <;> simp [refIdcFields]
  have hexplicit : ∀ f ∈ rpsExplicitFields r, RaisesOnly P (Field.code f) := by
    simp only [rpsExplicitFields, List.forall_mem_append, List.forall_mem_flatMap, List.forall_mem_cons, hue,
      raisesOnly_code_bit, List.not_mem_nil, false_imp_iff, implies_true, and_self]
  have hlong : ∀ f ∈ rpsLongTermFields r, RaisesOnly P (Field.code f) := by
    simp only [rpsLongTermFields, List.forall_mem_cons, hue, true_and, List.forall_mem_flatMap]
    intro k _
    split <;> simp [hue]
  simp only [List.cons_append, List.forall_mem_cons, raisesOnly_code_bit, true_and, List.forall_mem_append]
  constructor
  · split
    · exact hinter
    · exact hexplicit
  · split
    · exact hlong
    · nofun

/-- A well-shaped record raises `RPS_PRECOND` or `UVLC_RANGE` at most (41_rps.md R142). -/
theorem raisesOnly_rps (hpre : P .rpsPrecond) (hue : P .uvlcRange) {s : State} {r : RpsRecord}
    (hv : s.opa.valid = true) (hr : s.store.read s.opa.value.toNat = some (.rps r))
    (hu : r.used.length = r.deltaPoc.length) : RaisesOnly P (codeOf .rps s) := by
  by_cases hp : rpsPrecondHolds r
  · rw [codeOf_rps_fields hv hr hu hp]
    exact raisesOnly_fields (raisesOnly_rpsFields hue r)
  · rw [codeOf_rps hv hr hu, rpsPrecond_eq, if_neg hp]
    exact raisesOnly_error hpre

/-! ### EPO -/

/-- A table of at most `UVLC_MAX` entries in at most 32 bits each raises `EPO_CAPACITY` at most (42_entry_point.md R175,
R177). -/
theorem raisesOnly_epoTable (h : P .epoCapacity) (p : Params) (B0 : Nat) {w : Nat} {off : List Nat} (hw : w ≤ 32)
    (hlen : off.length ≤ 2 ^ 32 - 2) : RaisesOnly P (epoTable p B0 w off) := by
  cases off with
  | nil =>
    rw [epoTable_nil]
    exact raisesOnly_ok _
  | cons first rest =>
    obtain rfl | h0 := w.eq_zero_or_pos
    · rw [epoTable_cons_width_zero _ _ hlen]
      exact raisesOnly_error h
    · rw [epoTable_cons _ _ h0 hw hlen]
      dsimp only
      split
      · exact raisesOnly_error h
      · exact raisesOnly_ok _

/-- A record has no more offsets than elements (42_entry_point.md R172, R173). -/
theorem epoOffsetsForm_length_le {r : EpoRecord} {n : Nat} (ht : r.tileAddr.length ≤ n)
    (hs : r.substreamBits.length ≤ n) : (epoOffsetsForm r).length ≤ n := by
  unfold epoOffsetsForm
  split
  · exact n.zero_le
  · rwa [List.length_map, List.length_range]
  · rw [List.length_map]
    refine (List.rdropWhile_prefix _ _).length_le.trans ?_
    rwa [List.length_map]

/-- A record of at most `UVLC_MAX` elements raises `EPO_PRECOND` or `EPO_CAPACITY` at most (42_entry_point.md R178). -/
theorem raisesOnly_epoBits (hpre : P .epoPrecond) (hcap : P .epoCapacity) (p : Params) {r : EpoRecord} (B0 : Nat)
    (ht : r.tileAddr.length ≤ 2 ^ 32 - 2) (hs : r.substreamBits.length ≤ 2 ^ 32 - 2) :
    RaisesOnly P (epoBits p r B0) := by
  by_cases hm : r.mode = .none
  · rw [epoBits_of_none hm]
    exact raisesOnly_ok _
  by_cases hd : r.mode = .tiles ∧ tilesDecrease r
  · rw [epoBits_of_tilesDecrease hd.1 hd.2]
    exact raisesOnly_error hpre
  rw [epoBits_eq hm hd]
  split
  · exact raisesOnly_error hcap
  · exact raisesOnly_epoTable hcap p B0 (by omega) (epoOffsetsForm_length_le ht hs)

/-! ### WP -/

/-- Of the fields of WP only the first is a `UE`, of an 8-bit operand (43_weighted_pred.md R192-R195). -/
theorem raisesOnly_wpFields (h : P .svlcRange) (p : Params) (r : WpRecord) :
    ∀ f ∈ wpFields p r, RaisesOnly P (Field.code f) := by
  have hse (v : Int) : RaisesOnly P (Field.code (.se v)) := raisesOnly_se h v
  have hdenom : RaisesOnly P (Field.code (.ue r.lumaLog2Denom.toNat)) := by
    have hlt := r.lumaLog2Denom.toNat_lt
    exact raisesOnly_ue_of_inRange (by omega)
  have hentry (e : WpEntry) : ∀ f ∈ wpEntryFields p r e, RaisesOnly P (Field.code f) := by
    unfold wpEntryFields wpComponentFields
    cases e.lumaPresent <;> cases e.chromaPresent <;> simp [hse]
  simp only [wpFields, List.forall_mem_append, List.forall_mem_cons, hdenom, hse, true_and, List.forall_mem_flatMap]
  exact ⟨nofun, fun e _ => hentry e⟩

/-- WP raises `WP_PRECOND` or `SVLC_RANGE` at most (43_weighted_pred.md R190, R191). -/
theorem raisesOnly_wpBits (hpre : P .wpPrecond) (hse : P .svlcRange) (p : Params) (r : WpRecord) :
    RaisesOnly P (wpBits p r) := by
  by_cases hc : r.sliceType = .p ∧ r.mode = .combined
  · rw [wpBits_of_combined hc]
    exact raisesOnly_error hpre
  by_cases hnil : wpCoded r = []
  · rw [wpBits_of_nil hc hnil]
    exact raisesOnly_ok _
  by_cases hd : 1 ≤ r.bitDepthC.toNat ∧ r.bitDepthC.toNat ≤ 16
  · rw [wpBits_of_goodDepth hnil hd]
    exact raisesOnly_fields (raisesOnly_wpFields hse p r)
  · rw [wpBits_of_badDepth hnil hd]
    exact raisesOnly_error hpre

/-! ### SL -/

/-- The coefficient walk is made of `SE` operands (44_scaling_list.md R216). -/
theorem raisesOnly_slWalkCodes (h : P .svlcRange) (vs : List Int) (pred : Int) :
    ∀ x ∈ slWalkCodes pred vs, RaisesOnly P x := by
  induction vs generalizing pred with
  | nil => nofun
  | cons v vs ih => exact List.forall_mem_cons.mpr ⟨raisesOnly_se h _, ih v⟩

/-- DPCM mode is made of bits and `SE` operands (44_scaling_list.md R213-R216). -/
theorem raisesOnly_slDpcmCodes (h : P .svlcRange) (p : Params) (r : SlRecord) (cls : SlClass) (c l : Nat) :
    ∀ x ∈ slDpcmCodes p r cls c l, RaisesOnly P x := by
  have hbit : RaisesOnly P (oneBit true) := raisesOnly_ok _
  unfold slDpcmCodes
  dsimp only
  split
  · refine List.forall_mem_append.mpr ⟨?_, ?_⟩
    · simp [hbit, raisesOnly_se h]
    · split
      · nofun
      · exact raisesOnly_slWalkCodes h _ _
  · exact List.forall_mem_cons.mpr ⟨hbit, raisesOnly_slWalkCodes h _ _⟩

/-- The scan from the most recent index finds an index below its bound (44_scaling_list.md R211). -/
theorem lastBelow_lt {test : Nat → Bool} {l j : Nat} (h : lastBelow test l = some j) : j < l := by
  rw [lastBelow_eq] at h
  exact List.mem_range.mp (List.mem_filter.mp (List.mem_of_getLast? h)).1

/-- A list of a class of fewer than 2^32 raises `SVLC_RANGE` at most: its copy distance is in the range of `UE`
(44_scaling_list.md R211; log entry 15). -/
theorem raisesOnly_slListCodes (h : P .svlcRange) (p : Params) (r : SlRecord) (cls : SlClass) (c : Nat) {l : Nat}
    (hl : l < 2 ^ 32) : ∀ x ∈ slListCodes p r cls c l, RaisesOnly P x := by
  unfold slListCodes
  split
  · next j hj =>
    have hlt := lastBelow_lt hj
    have hcopy : RaisesOnly P (ue ((l : Int) - j - 1)) := raisesOnly_ue_of_inRange (by omega)
    have hbit : RaisesOnly P (oneBit false) := raisesOnly_ok _
    simp [hcopy, hbit]
  · exact raisesOnly_slDpcmCodes h p r cls c l

/-- SL raises `SVLC_RANGE` at most, in classes of fewer than 2^32 lists (44_scaling_list.md R210). -/
theorem raisesOnly_slBits (h : P .svlcRange) {p : Params} (hp : ∀ c ∈ p.slClasses, c.numLists < 2 ^ 32)
    (r : SlRecord) : RaisesOnly P (slBits p r) := by
  apply raisesOnly_concatCodes
  simp only [List.forall_mem_flatMap, List.mem_range]
  rintro ⟨cls, c⟩ hcls l hl
  have hmem : cls ∈ p.slClasses := (List.mem_zipIdx' hcls).2 ▸ List.getElem_mem _
  exact raisesOnly_slListCodes h p r cls c (hl.trans (hp cls hmem))

end

/-! ### Every command -/

/-- The answer of every command raises only the faults of its row of the summary (60_exceptions.md R247). -/
theorem raisesOnly_codeOf (i : Instr) (s : State)
    (hepo : ∀ h r, s.store.read h = some (.epo r) →
      r.tileAddr.length ≤ 2 ^ 32 - 2 ∧ r.substreamBits.length ≤ 2 ^ 32 - 2)
    (hsl : ∀ c ∈ s.params.slClasses, c.numLists < 2 ^ 32) :
    RaisesOnly (fun c => c.code.toNat ∈ faultTable i) (codeOf i s) := by
  cases hv : s.opa.valid with
  | false =>
    rw [codeOf_of_opa_unwritten i hv]
    apply raisesOnly_error
    cases i <;> exact List.mem_cons_self
  | true =>
    by_cases hbad : badDescriptorFor s.params i (s.store.read s.opa.value.toNat)
    · rw [codeOf_of_badDescriptor hv hbad]
      apply raisesOnly_error
      cases i with
      | rps | epo | wp | sl => decide
      | fixed | flag | uvlc | svlc | tu | eglvl | egesc => exact hbad.elim
    cases i with
    | fixed n =>
      rw [codeOf_fixed hv]
      exact raisesOnly_fix (by simp [faultTable, Cause.code]) _ n
    | flag =>
      rw [codeOf_flag hv, fix_of_legal _ (by decide) (by decide)]
      exact raisesOnly_ok _
    | uvlc =>
      rw [codeOf_uvlc hv]
      exact raisesOnly_ue (by decide) _
    | svlc =>
      rw [codeOf_svlc hv]
      exact raisesOnly_se (by decide) _
    | tu =>
      cases hb : s.opb.valid with
      | false =>
        rw [codeOf_tu_of_unwritten (.inr hb)]
        exact raisesOnly_error (by decide)
      | true =>
        rw [codeOf_tu hv hb]
        exact raisesOnly_truncatedUnary (by decide) _ _
    | eglvl =>
      rw [codeOf_eglvl hv]
      exact raisesOnly_egl s.opa.value.isLt
    | egesc k =>
      rw [codeOf_egesc hv]
      exact raisesOnly_egk (by simp [faultTable, Cause.code]) _ k
    | rps =>
      simp only [badDescriptorFor, not_forall, not_not] at hbad
      obtain ⟨r, hr, hu⟩ := hbad
      exact raisesOnly_rps (by decide) (by decide) hv hr hu
    | epo =>
      simp only [badDescriptorFor, not_forall, not_not] at hbad
      obtain ⟨r, hr⟩ := hbad
      obtain ⟨ht, hs⟩ := hepo _ r hr
      rw [codeOf_epo hv hr]
      exact raisesOnly_epoBits (by decide) (by decide) _ _ ht hs
    | wp =>
      simp only [badDescriptorFor, not_forall, not_not] at hbad
      obtain ⟨r, hr⟩ := hbad
      rw [codeOf_wp hv hr]
      exact raisesOnly_wpBits (by decide) (by decide) _ r
    | sl =>
      simp only [badDescriptorFor, not_forall, not_not] at hbad
      obtain ⟨r, hr, hshape⟩ := hbad
      rw [codeOf_sl hv hr hshape]
      exact raisesOnly_slBits (by decide) hsl r

/-- Every command can raise `SINK_OVERFLOW` (60_exceptions.md R247). -/
theorem sinkOverflow_mem_faultTable (i : Instr) : Cause.sinkOverflow.code.toNat ∈ faultTable i := by
  cases i <;> simp [faultTable, Cause.code]

/-- The opcode of a command is bits 7:0 of its row's `match` (30_encoding.md R63). -/
theorem opcode_eq_match (i : Instr) : i.opcode = (row i).1.extractLsb' 0 8 := by
  rw [row_eq]
  exact (opcField_zeroExtend i.opcode).symm

/-- Settles O14: a command that ends faulted made fault entry for the fault of its answer, or for an overflow. -/
theorem commandRaisesOnlyItsFaults : Obligations.CommandRaisesOnlyItsFaults := by
  intro i s t hf hepo hsl h ht
  rw [exec_eq, Host.Outcome.next.injEq] at h
  have hentry (c : Cause) (hc : c.code.toNat ∈ faultTable i) (he : t = s.faultEntry c i.opcode) :
      t.status.fcode.toNat ∈ faultTable i ∧ t.status.fopc = (row i).1.extractLsb' 0 8 := by
    rw [he]
    exact ⟨hc, opcode_eq_match i⟩
  rcases s.complete_cases i.opcode (codeOf i s) with ⟨hfault, -⟩ | ⟨-, c, hc, he⟩ | ⟨-, out, -, -, he⟩ |
    ⟨-, out, -, -, he⟩
  · rw [hf] at hfault
    cases hfault
  · exact hentry c (raisesOnly_codeOf i s hepo hsl c hc) (h.symm.trans he)
  · rw [← h, he, State.append_status, hf] at ht
    cases ht
  · exact hentry .sinkOverflow (sinkOverflow_mem_faultTable i) (h.symm.trans he)

end Sys2Proof.Machine
end

section
/-! Decoding the output codes (30_encoding.md R75, 40_vlc.md R107). -/

namespace Sys2Proof.Machine

open Sys2Proof.Safety

/-! ### The closed form of `EGK` -/

/-- `p` ones, a zero and `k + p` bits. -/
theorem egkForm_length (s k p : Nat) : (egkForm s k p).length = 2 * p + k + 1 := by
  simp only [egkForm, fixForm, List.length_append, List.length_replicate, List.length_cons, List.length_ofFn]
  omega

/-- Settles O29: every codable symbol has its number of leading ones. -/
theorem escapedCodeClosedForm : Obligations.EscapedCodeClosedForm := by
  intro s k hk hs
  obtain ⟨p, hp, -⟩ := exists_prefixCount s k hk hs
  exact ⟨p, hp, egk_of_prefixCount hk hs hp, egkForm_length s k p⟩

/-! ### Round trips of `UE` and `SE` -/

/-- The binary numeral of a positive number starts with a 1 (40_vlc.md R101). -/
theorem bitsMsb_of_topBit {m c : Nat} (hlo : 2 ^ m ≤ c) (hhi : c < 2 ^ (m + 1)) :
    bitsMsb (m + 1) c = true :: bitsMsb m c := by
  rw [bitsMsb, Nat.testBit_of_two_pow_le_and_two_pow_add_one_gt hlo hhi]

/-- The decoder reads the code word after as many zeros as it has bits below its top one (40_vlc.md R107). -/
theorem decodeUe_zeros_codeword (m c : Nat) (hlo : 2 ^ m ≤ c) (hhi : c < 2 ^ (m + 1)) (rest : Bits) :
    decodeUe (rep false m ++ bitsMsb (m + 1) c ++ rest) = (c - 1, rest) := by
  have hzeros : ((rep false m ++ bitsMsb (m + 1) c ++ rest).takeWhile fun x => !x) = rep false m := by
    rw [bitsMsb_of_topBit hlo hhi, List.append_assoc, rep, List.takeWhile_append_of_pos (by simp)]
    simp
  have hm : (rep false m).length = m := List.length_replicate
  have hc : (bitsMsb (m + 1) c).length = m + 1 := bitsMsb_length _ _
  unfold decodeUe
  dsimp only
  rw [hzeros, hm, List.append_assoc, List.drop_left' hm, List.take_left' hc, List.drop_left' hc,
    natOfBits_bitsMsb, Nat.mod_eq_of_lt hhi]

/-- The decoder recovers every number from its `UE` code (40_vlc.md R107). -/
theorem decodeUe_ueBits (v : Nat) (rest : Bits) : decodeUe (ueBits v ++ rest) = (v, rest) := by
  obtain ⟨hlo, hhi⟩ := floorLog2_bounds v
  exact decodeUe_zeros_codeword _ _ hlo hhi rest

/-- `unzigzag` inverts `zigzag` (40_vlc.md R102). -/
theorem unzigzag_zigzag (v : Int) : unzigzag (zigzag v).toNat = v := by
  unfold unzigzag
  obtain hpos | hneg := lt_or_ge 0 v
  · rw [zigzag_of_pos hpos, if_neg (by omega)]
    omega
  · rw [zigzag_of_nonpos hneg, if_pos (by omega)]
    omega

/-- Settles O30: the code of `UE` is the one of its operand, and the code of `SE` the one of its zigzag image. -/
theorem expGolombRoundTrips : Obligations.ExpGolombRoundTrips := by
  refine ⟨fun v code rest h => ?_, fun v code rest h => ?_⟩
  · obtain ⟨-, rfl⟩ := ue_eq_ok.mp h
    exact decodeUe_ueBits _ _
  · obtain ⟨-, rfl⟩ := se_eq_ok.mp h
    rw [decodeUe_ueBits]
    exact ⟨unzigzag_zigzag v, rfl⟩

/-! ### Codes that begin no other code -/

/-- Fields of one width: one that begins the other is equal to it. -/
theorem eq_of_bitsMsb_prefix {n v w : Nat} (hv : v < 2 ^ n) (hw : w < 2 ^ n) (h : bitsMsb n v <+: bitsMsb n w) :
    v = w :=
  bitsMsb_inj hv hw (h.eq_of_length (by simp))

/-- The loop of `EGK` from one count: what it emits for one symbol begins what it emits for no other (40_vlc.md R107). -/
theorem eq_of_egkLoop_prefix {fuel c r r' : Nat} (hr : r + 2 ^ c < 2 ^ (c + fuel + 1))
    (hr' : r' + 2 ^ c < 2 ^ (c + fuel + 1)) (h : egkLoop fuel c r <+: egkLoop fuel c r') : r = r' := by
  induction fuel generalizing c r r' with
  | zero =>
    rw [Nat.add_zero, pow_succ] at hr hr'
    exact eq_of_bitsMsb_prefix (by omega) (by omega) (List.cons_prefix_cons.mp h).2
  | succ fuel ih =>
    simp only [egkLoop] at h
    by_cases hc : 2 ^ c ≤ r <;> by_cases hc' : 2 ^ c ≤ r'
    · rw [if_pos hc, if_pos hc', List.cons_prefix_cons] at h
      have hnext : 2 ^ (c + 1) = 2 * 2 ^ c := pow_succ' 2 c
      have hbound : c + 1 + fuel + 1 = c + (fuel + 1) + 1 := by omega
      have := ih (hbound ▸ by omega) (hbound ▸ by omega) h.2
      omega
    · rw [if_pos hc, if_neg hc', List.cons_prefix_cons] at h
      exact absurd h.1 (by decide)
    · rw [if_neg hc, if_pos hc', List.cons_prefix_cons] at h
      exact absurd h.1 (by decide)
    · rw [if_neg hc, if_neg hc', List.cons_prefix_cons] at h
      exact eq_of_bitsMsb_prefix (by omega) (by omega) h.2

/-- The symbols and orders `EGK` codes (40_vlc.md R105). -/
theorem egk_eq_ok {s k : Nat} {out : Bits} (h : egk s k = .ok out) :
    k ≤ 31 ∧ s < 2 ^ 32 - 2 ^ k ∧ egkLoop 32 k s = out := by
  unfold egk egescMaxOrder at h
  split at h
  · cases h
  · exact ⟨by omega, by omega, Except.ok.inj h⟩

/-- The symbols `TU` codes against a positive maximum (40_vlc.md R104). -/
theorem truncatedUnary_eq_ok {s M : Nat} {out : Bits} (hM : 0 < M) (h : truncatedUnary s M = .ok out) :
    s ≤ M ∧ (List.replicate s true ++ if s < M then [false] else []) = out := by
  obtain hgt | hle := Nat.lt_or_ge M s
  · rw [truncatedUnary_of_gt hM hgt] at h
    cases h
  · rw [truncatedUnary_of_le hM hle] at h
    exact ⟨hle, Except.ok.inj h⟩

/-- What `TU` emits for one symbol up to the maximum begins what it emits for no other (40_vlc.md R107). -/
theorem eq_of_truncatedUnary_prefix {M s t : Nat} (hs : s ≤ M) (ht : t ≤ M)
    (h : (List.replicate s true ++ if s < M then [false] else []) <+:
      (List.replicate t true ++ if t < M then [false] else [])) : s = t := by
  induction M generalizing s t with
  | zero => omega
  | succ M ih =>
    cases s with
    | zero =>
      cases t with
      | zero => rfl
      | succ t => simp [List.replicate_succ] at h
    | succ s =>
      cases t with
      | zero => simp [List.replicate_succ] at h
      | succ t =>
        simp only [List.replicate_succ, List.cons_append, List.cons_prefix_cons, true_and,
          Nat.succ_lt_succ_iff] at h
        rw [ih (by omega) (by omega) h]

/-- Settles O31: both symbols are in range, so their codes are those of the loop from one count, and of one maximum. -/
theorem escapedAndUnaryCodesArePrefixFree : Obligations.EscapedAndUnaryCodesArePrefixFree := by
  refine ⟨fun k s t a b ha hb hab => ?_, fun M s t a b hM ha hb hab => ?_⟩
  · obtain ⟨hk, hs, rfl⟩ := egk_eq_ok ha
    obtain ⟨-, ht, rfl⟩ := egk_eq_ok hb
    have hfuel : 2 ^ 32 ≤ 2 ^ (k + 32 + 1) := Nat.pow_le_pow_right (by decide) (by omega)
    exact eq_of_egkLoop_prefix (by omega) (by omega) hab
  · obtain ⟨hs, rfl⟩ := truncatedUnary_eq_ok hM ha
    obtain ⟨ht, rfl⟩ := truncatedUnary_eq_ok hM hb
    exact eq_of_truncatedUnary_prefix hs ht hab

end Sys2Proof.Machine
end

section
/-! The host port (10_state.md R22-R26, 20_memory.md R40-R54). -/

namespace Sys2Proof.Machine

open Sys2Proof.Safety

/-! ### Register accesses -/

/-- The address of CMD (10_state.md R22). -/
theorem regAt_cmd (p : Params) : regAt p p.base 4 = some .cmd := by
  simp [regAt_eq_some]

/-- The word of STATUS as a number: its fields do not overlap (10_state.md R26). -/
theorem Status.word_toNat (t : Status) :
    t.word.toNat = t.fault.toNat + t.fcode.toNat * 2 ^ 8 + t.fopc.toNat * 2 ^ 16 := by
  have hfault := t.fault.toNat_le
  have hfcode := t.fcode.isLt
  have hfopc := t.fopc.isLt
  rw [Status.word, BitVec.toNat_ofNat]
  omega

/-- A bit field of a word as a number. -/
theorem extractLsb'_eq_iff {w : Word} {start len : Nat} {v : BitVec len} :
    w.extractLsb' start len = v ↔ w.toNat / 2 ^ start % 2 ^ len = v.toNat := by
  rw [← BitVec.toNat_inj, BitVec.extractLsb'_toNat, Nat.shiftRight_eq_div_pow]

/-- Where the fields of STATUS stand in its word (10_state.md R26). -/
theorem Status.word_fields (t : Status) :
    t.word.getLsbD 0 = t.fault ∧ t.word.extractLsb' 1 7 = 0 ∧ t.word.extractLsb' 8 8 = t.fcode ∧
      t.word.extractLsb' 16 8 = t.fopc ∧ t.word.extractLsb' 24 8 = 0 := by
  have hfault := t.fault.toNat_le
  have hfcode := t.fcode.isLt
  have hfopc := t.fopc.isLt
  have hbit : t.word.toNat % 2 = t.fault.toNat := by
    rw [t.word_toNat]
    omega
  refine ⟨?_, ?_, ?_, ?_, ?_⟩
  · rw [BitVec.getLsbD, Nat.testBit_zero, hbit]
    cases t.fault <;> rfl
  · rw [extractLsb'_eq_iff, t.word_toNat, show (0 : BitVec 7).toNat = 0 from rfl]
    omega
  · rw [extractLsb'_eq_iff, t.word_toNat]
    omega
  · rw [extractLsb'_eq_iff, t.word_toNat]
    omega
  · rw [extractLsb'_eq_iff, t.word_toNat, show (0 : BitVec 8).toNat = 0 from rfl]
    omega

/-- The read of a written operand register returns its value (10_state.md R23). -/
theorem State.respondOperand_of_valid {o : Operand} (h : o.valid = true) (s : State) :
    s.respondOperand o = s.respond o.value := if_pos h

/-- Settles O44: each access reaches its register by its address. -/
theorem hostRegisterAccess : Obligations.HostRegisterAccess := by
  intro s rest v
  refine ⟨fun hh => ?_, fun hh => ?_, fun hh => ?_, fun hh => ?_, fun hh hv => ?_, fun hh hv => ?_, fun hh => ?_⟩
  · exact step_of_write hh (regAt_opa s.params)
  · exact step_of_write hh (regAt_opb s.params)
  · exact step_of_write hh (regAt_status s.params)
  · exact step_of_read hh (regAt_cmd s.params)
  · rw [step_of_read hh (regAt_opa s.params), State.readReg, State.respondOperand_of_valid hv]
    rfl
  · rw [step_of_read hh (regAt_opb s.params), State.readReg, State.respondOperand_of_valid hv]
    rfl
  · exact ⟨s.status.word, step_of_read hh (regAt_status s.params), s.status.word_fields⟩

/-- Settles O45: no read changes anything but the returned data and the counter of free values. -/
theorem readOfUnwrittenOperandAnswers : Obligations.ReadOfUnwrittenOperandAnswers := by
  intro s rest h
  have hread (addr : Nat) (r : Reg) (hh : s.host = .read addr 4 :: rest) (hr : regAt s.params addr 4 = some r) :
      ∃ v d, step s = .next { s with host := rest, reads := s.reads ++ [v], draws := d } := by
    obtain ⟨v, d, he⟩ := State.readReg_eq { s with host := rest } r
    exact ⟨v, d, (step_of_read hh hr).trans (congrArg _ he)⟩
  obtain ⟨hh, -⟩ | ⟨hh, -⟩ := h
  · exact hread _ _ hh (regAt_opa s.params)
  · exact hread _ _ hh (regAt_opb s.params)

/-- Settles O46: such an access reaches no register. -/
theorem accessOutsideTheWindowIsRefused : Obligations.AccessOutsideTheWindowIsRefused := by
  intro s rest addr size v h hh
  have hnone : regAt s.params addr size = none := (regAt_eq_none _ _ _).mpr h
  obtain hh | hh := hh <;> simp only [step, hh, hostStep, hnone]

/-! ### The sink -/

/-- Settles O49: either alignment is a direct append, of zeros or of a free pattern, up to a byte boundary. -/
theorem hostAlignmentReachesAByte : Obligations.HostAlignmentReachesAByte := by
  refine fun s rest => ⟨fun hh hfit => ?_, fun hh hfit => ?_⟩
  · obtain ⟨hlt, hmod⟩ := alignZerosBits_spec s.pos
    have hzeros : alignZerosBits s.pos = List.replicate (alignZerosBits s.pos).length false := by
      simp [alignZerosBits, rep]
    refine ⟨_, hlt, hmod, ?_⟩
    rw [← hzeros]
    have hroom : s.sink.length + (alignZerosBits s.pos).length ≤ sinkMaxBits := by
      unfold sinkMaxBits
      omega
    simp only [step, hh]
    exact hostAppend_of_fits (s := { s with host := rest }) hroom
  · obtain ⟨hle, hmod⟩ := alignOneBits_spec s.pos
    have hroom : s.sink.length + (alignOneBits s.pos).length ≤ sinkMaxBits := by
      unfold sinkMaxBits
      omega
    refine ⟨alignOneBits s.pos, hle, hmod, ?_⟩
    simp only [step, hh]
    exact hostAppend_of_fits (s := { s with host := rest }) hroom

/-- Settles O50, by induction on the list of writes: each one appends its field. -/
theorem sinkWriteGroupingIsInvisible : Obligations.SinkWriteGroupingIsInvisible := by
  intro ws
  induction ws with
  | nil =>
    intro s _ hh _
    rw [List.flatMap_nil, List.append_nil, show ([] : List HostOp) = s.host from hh.symm]
    rfl
  | cons x ws ih =>
    intro s hlegal hh hfit
    obtain ⟨hx, hws⟩ := List.forall_mem_cons.mp hlegal
    rw [List.map_cons, List.sum_cons] at hfit
    have hstep := hostSinkWriteAppendsField s _ x.1 x.2 hh hx.1 hx.2 (by omega)
    have hlen : (fixForm x.2 x.1.toNat).length = x.2 := List.length_ofFn
    rw [List.length_cons, run_of_step _ hstep, ih _ hws rfl (by rw [List.length_append, hlen]; omega),
      List.flatMap_cons, List.append_assoc]

/-! ### The descriptor store -/

/-- Settles O51: the change is `Memory.set`. -/
theorem recordChangeIsSeenAtItsHandleOnly : Obligations.RecordChangeIsSeenAtItsHandleOnly := by
  intro s h r rest hwf hh
  refine ⟨s.store.set h.toNat r, ?_, s.store.set_wf _ r h.isLt hwf, s.store.read_set_same _ r hwf,
    fun k hk => s.store.read_set_other _ k r hk⟩
  simp only [step, hh, hostStep]

/-! ### The byte view -/

/-- The first `n` bits of a sequence as a number, most-significant bit first and an absent bit 0 (20_memory.md R45). -/
def firstBits (b : Bits) (n : Nat) : Nat := (List.range n).foldl (fun acc k => 2 * acc + (b.getD k false).toNat) 0

/-- One more bit. -/
theorem firstBits_succ (b : Bits) (n : Nat) : firstBits b (n + 1) = 2 * firstBits b n + (b.getD n false).toNat := by
  simp only [firstBits, List.range_succ, List.foldl_append, List.foldl_cons, List.foldl_nil]

/-- Stream bit `n - 1 - j` is bit `j` of that number. -/
theorem firstBits_testBit (b : Bits) {n j : Nat} (h : j < n) : (firstBits b n).testBit j = b.getD (n - 1 - j) false := by
  induction n generalizing j with
  | zero => omega
  | succ n ih =>
    rw [firstBits_succ]
    cases j with
    | zero =>
      show _ = b.getD n false
      cases b.getD n false <;> simp
    | succ j =>
      have hdiv : (2 * firstBits b n + (b.getD n false).toNat) / 2 = firstBits b n := by
        have := (b.getD n false).toNat_le
        omega
      rw [Nat.testBit_succ, hdiv, ih (by omega)]
      congr 1
      omega

/-- Stream bit `k` of a byte is its bit `7 - k` (20_memory.md R45). -/
theorem byteOfBits_getLsbD (b : Bits) {k : Nat} (h : k < 8) : (byteOfBits b).getLsbD (7 - k) = b.getD k false := by
  have hb : byteOfBits b = BitVec.ofNat 8 (firstBits b 8) := rfl
  rw [hb, BitVec.getLsbD_ofNat, firstBits_testBit b (by omega)]
  simp only [show 7 - k < 8 by omega, decide_true, Bool.true_and]
  congr 1
  omega

/-- Byte `m` of the byte view holds the bits from `8 * m` on (20_memory.md R45). -/
theorem byteView_getD (b : Bits) {m : Nat} (h : 8 * m < b.length) :
    (byteView b).getD m 0 = byteOfBits ((b.drop (8 * m)).take 8) := by
  have hm : m < (byteView b).length := by
    rw [byteView, List.length_map, List.length_range]
    omega
  rw [List.getD_eq_getElem _ _ hm]
  simp [byteView]

/-- Settles O52: bit `k` is bit `k mod 8` of the eight that byte `k / 8` holds. -/
theorem byteViewIsMsbFirst : Obligations.ByteViewIsMsbFirst := by
  intro b k h
  rw [byteView_getD b (by omega), byteOfBits_getLsbD _ (Nat.mod_lt k (by decide))]
  simp [List.getD_eq_getElem?_getD, Nat.mod_lt, Nat.div_add_mod, h]

end Sys2Proof.Machine
end

section
/-! Pseudo-instructions (30_encoding.md R81), and the default scaling-list geometry (44_scaling_list.md R212). -/

namespace Sys2Proof.Machine

open Sys2Proof.Safety

/-- The CMD write of a well-formed command is its `exec` (30_encoding.md R80). -/
theorem step_of_stmt_command {s : State} {i : Instr} {rest : List HostOp} (hi : i.wellFormed = true)
    (h : s.host = Stmt.op s.params.base (.command i) :: rest) : step s = exec i { s with host := rest } :=
  stepRunsTheDecodedCommand s (encode i) i rest h (decodeOfEncode i hi)

/-- A write of OPA and then a command (30_encoding.md R81). -/
theorem run_wrOpa_command {s : State} {v : Word} {i : Instr} {rest : List HostOp} (hi : i.wellFormed = true)
    (h : s.host = [Stmt.wrOpa v, .command i].map (Stmt.op s.params.base) ++ rest) :
    Host.Core.run Sys2Proof.core 2 s = exec i { s with host := rest, opa := { valid := true, value := v } } := by
  rw [run_of_step 1 (step_of_write h (regAt_opa s.params)), run_one]
  exact step_of_stmt_command hi rfl

/-- A write of OPA, a write of OPB and then TU (30_encoding.md R81). -/
theorem run_wrOpa_wrOpb_tu {s : State} {v w : Word} {rest : List HostOp}
    (h : s.host = [Stmt.wrOpa v, .wrOpb w, .command .tu].map (Stmt.op s.params.base) ++ rest) :
    Host.Core.run Sys2Proof.core 3 s =
      exec .tu { s with host := rest, opa := { valid := true, value := v }, opb := { valid := true, value := w } } := by
  refine (run_of_step 2 (step_of_write h (regAt_opa s.params))).trans ?_
  refine (run_of_step 1 (step_of_write rfl (regAt_opb _))).trans ?_
  exact (run_one _).trans (step_of_stmt_command rfl rfl)

/-- Settles O53: every expansion but that of `put.tu` is a write of OPA and a command. -/
theorem pseudoInstructionRunsItsCommand : Obligations.PseudoInstructionRunsItsCommand := by
  intro p s rest himm hh
  cases p with
  | putU v n => exact run_wrOpa_command (decide_eq_true himm) hh
  | putEgk v k => exact run_wrOpa_command (decide_eq_true himm) hh
  | putTu v m => exact run_wrOpa_wrOpb_tu hh
  | putF | putUe | putSe | putEgl | encRps | encEpo | encWp | encSl => exact run_wrOpa_command rfl hh

/-- Settles O43: closed lists, the scans compared with the diagonals they are. -/
theorem defaultScalingListGeometry : Obligations.DefaultScalingListGeometry :=
  ⟨rfl, rfl, rfl, by decide, by decide⟩

end Sys2Proof.Machine
end
